-- ==== Sys2Proof/Word.lean ====
section
/-! DEFINITION. The widths of the block (spec rules R4 and R6): bit, byte, 7-bit register address, 32-bit register value, 40-bit frame. Bit 0 of every value is its least significant bit. -/

namespace Sys2Proof

/-- A single bit (R6 `bit`). -/
abbrev Bit := BitVec 1

/-- A byte, eight bits (R6). -/
abbrev Byte := BitVec 8

/-- A device register's address: `ADDR_BITS` = 7 (R4, R35). -/
abbrev Addr := BitVec 7

/-- A register value: `DATA_BITS` = 32, unsigned (R4, R35). -/
abbrev Word := BitVec 32

/-- A frame as the 40-bit value `F`, frame byte i being `F[39-8i : 32-8i]` (R6, R60, R61). -/
abbrev Frame := BitVec 40

end Sys2Proof
end

