-- ==== Sys2Proof/Config.lean ====
section
/-! DEFINITION. What is fixed for one block: the configuration constants of rule R4, the test configuration of rule R5, what an environment can answer, and the FREE VALUES of the environment (opaque: no proof can see what they are). -/

namespace Sys2Proof

/-- What the policy `RAW_WRITE_TO_SHADOWED` can be (R4, R132). -/
inductive RawWrite where
  | update
  | bypass
  | refuse
  deriving DecidableEq, Repr

/-- The access right of a field of a device register (R4 `FIELDS`). -/
inductive Access where
  | ro
  | rw
  deriving DecidableEq, Repr

/-- One row `name -> (k, lo, width, access)` of the table `FIELDS` (R4). -/
structure FieldRow where
  name   : String
  addr   : Addr
  lo     : Nat
  width  : Nat
  access : Access
  deriving DecidableEq, Repr

/-- One member k of `SHADOW_SET` with its word `SHADOW_RESET[k]` (R4). -/
structure ShadowEntry where
  addr  : Addr
  reset : Word
  deriving DecidableEq, Repr

/-- The constants of rule R4 that are OPEN: the straps of the block, stable before reset is released and written by no operation (R24(a), R26, R32). -/
structure Cfg where
  /-- `SHADOW_SET` and `SHADOW_RESET`. -/
  shadow               : List ShadowEntry
  /-- `FIELDS`. -/
  fields               : List FieldRow
  /-- `STATUS_BIT_DRIVER_ERROR`, an integer in 1..7. -/
  statusBitDriverError : Nat
  /-- `STATUS_BIT_OTW` (over-temperature warning), an integer in 1..7. -/
  statusBitOtw         : Nat
  /-- `STATUS_BIT_STANDSTILL`, an integer in 1..7. -/
  statusBitStandstill  : Nat
  /-- `ADDR_GCONF`. -/
  addrGconf            : Addr
  /-- `ADDR_GSTAT`. -/
  addrGstat            : Addr
  /-- `ADDR_OFFSET_READ`. -/
  addrOffsetRead       : Addr
  /-- `ADDR_DRV_STATUS`. -/
  addrDrvStatus        : Addr
  /-- `GSTAT_CLEAR_VALUE`. -/
  gstatClearValue      : Word
  /-- `HAS_ENABLE`: an enable line was attached at construction. -/
  hasEnable            : Bool
  /-- `INVERT_ENABLE`, meaningful only if `HAS_ENABLE`. -/
  invertEnable         : Bool
  /-- `RAW_WRITE_TO_SHADOWED`. -/
  rawWrite             : RawWrite
  deriving DecidableEq, Repr

/-- `STATUS_BIT_RESET` = 0, fixed (R4). -/
def Cfg.statusBitReset : Nat := 0

/-- `CFG_TEST` (R5). PRESUMED, unsafe (log 2, log 17): illustrative values and general-knowledge defaults of the spec, no claim about the device. -/
def Cfg.test : Cfg where
  shadow := [⟨0x00, 0x00000000⟩, ⟨0x10, 0x00000000⟩, ⟨0x6C, 0x10410150⟩]
  fields := [
    ⟨"recalibrate", 0x00, 0, 1, .rw⟩,
    ⟨"shaft", 0x00, 4, 1, .rw⟩,
    ⟨"ihold", 0x10, 0, 5, .rw⟩,
    ⟨"irun", 0x10, 8, 5, .rw⟩,
    ⟨"iholddelay", 0x10, 16, 4, .rw⟩,
    ⟨"toff", 0x6C, 0, 4, .rw⟩,
    ⟨"mres", 0x6C, 24, 4, .rw⟩]
  statusBitDriverError := 1
  statusBitOtw := 2
  statusBitStandstill := 3
  addrGconf := 0x00
  addrGstat := 0x01
  addrOffsetRead := 0x69
  addrDrvStatus := 0x6F
  gstatClearValue := 0x00000007
  hasEnable := true
  invertEnable := false
  rawWrite := .update

/-- What the environment can do with one exchange: `ok r` with the five bytes received, `fault` (R90, R91), or never answer (R190). -/
inductive Answer where
  | ok (r : Frame)
  | fault
  | silence
  deriving DecidableEq, Repr, Inhabited

/-- What the enable pin's driver can do with one pin write (R140, R157). -/
inductive PinAnswer where
  | ok
  | fault
  deriving DecidableEq, Repr, Inhabited

/-- FREE VALUE (R47, U12, U13): the environment's answer number n. DESIGN CHOICE, safe (log 6). -/
opaque Config.freeAnswer : Nat → Answer

/-- FREE VALUE (U23): whether the pin driver takes write number n. DESIGN CHOICE, safe (log 20). -/
opaque Config.freePin : Nat → PinAnswer

/-- FREE VALUE (R186, D18): what register a of the reference device holds after the failed exchange number n. DESIGN CHOICE, safe (log 8). -/
opaque Config.freeDevWord : Nat → Addr → Word

/-- FREE VALUE (R186, D18): what the reference device's latch holds after the failed exchange number n. DESIGN CHOICE, safe (log 8). -/
opaque Config.freeLatch : Nat → Word

end Sys2Proof
end

