-- ==== Sys2Proof/Syntax.lean ====
section
/-! DEFINITION. The instructions: one constructor for each row of spec/opcode_table.json, the pseudo-operations of rule R72 beside them, and what can be presented at the block's inputs (the command port of R27, a frame on the wire, the reset port of R32). -/

namespace Sys2Proof

/-- The rows of spec/opcode_table.json: two wire datagrams (R60), eleven host operations (R66), five reserved operation codes (R68).
An address operand of a host operation is a BYTE, so that the mask of R37 and the refusal of a shadow index outside `SHADOW_SET` can be said (DESIGN CHOICE, safe, log 9); the port carries its low 7 bits. -/
inductive Instr where
  /-- `RD a` with value bytes v (R60, R82). -/
  | rd (a : Addr) (v : Word)
  /-- `WR a, v` (R60, R82). -/
  | wr (a : Addr) (v : Word)
  /-- `ENC dir, a, v` (R80). -/
  | enc (dir : Bit) (a : Byte) (v : Word)
  /-- `DEC f` (R83). -/
  | dec (f : Frame)
  /-- `STDEC s` (R115). -/
  | stdec (sb : Byte)
  /-- `RDREG a` (R126). -/
  | rdreg (a : Byte)
  /-- `WRREG a, v` (R130). -/
  | wrreg (a : Byte) (v : Word)
  /-- `SETF k, m, b` (R101). -/
  | setf (k : Byte) (m : Word) (b : Word)
  /-- `UPD k` (R105). -/
  | upd (k : Byte)
  /-- `GETST` (R119). -/
  | getst
  /-- `GETSH k` (R109). -/
  | getsh (k : Byte)
  /-- `ENABLE` (R140). -/
  | enable
  /-- `DISABLE` (R141). -/
  | disable
  /-- Reserved operation code `0x0` (R68). -/
  | reserved0
  /-- Reserved operation code `0xC` (R68). -/
  | reservedC
  /-- Reserved operation code `0xD` (R68). -/
  | reservedD
  /-- Reserved operation code `0xE` (R68). -/
  | reservedE
  /-- Reserved operation code `0xF` (R68). -/
  | reservedF
  deriving DecidableEq, Repr

/-- The pseudo-operations of R72. -/
inductive Pseudo where
  | clrgstat
  | rdgstat
  | rddrvst
  | rdoffs
  | setfld (name : String) (val : Nat)
  /-- `UPDATE`, with the register named by its address (log 22). -/
  | update (k : Byte)
  | getfld (name : String) (v : Word)
  | construct
  deriving DecidableEq, Repr

/-- The signals of the host command port, sampled at acceptance (R27). -/
structure Command where
  op    : BitVec 4
  dir   : Bit
  a     : Addr
  wdata : Word
  wmask : Word
  fin   : Frame
  deriving DecidableEq, Repr

/-- What the outside presents to the machine, one at a time (R27, R30, R32): a command on the command port, a frame arriving on the device's side of the wire (log 5), or a level driven on the reset port `rst` (true = 1). -/
inductive Input where
  | command (c : Command)
  | frame (f : Frame)
  | rst (level : Bool)
  deriving DecidableEq, Repr

end Sys2Proof
end

