-- ==== Sys2Proof/Machine/State.lean ====
section
/-! DEFINITION. The state, as plain data: the block's own `(SH, PM, PV, ST, EN)` (R13), the configuration straps (R4), the environment at the transport boundary (R31, R46, R50), what is presented at the inputs and what has been returned (R27, R28, R30, R32). Also the faults and refusals, and the state after reset (R25). -/

namespace Sys2Proof.Machine

/-- One cell of the shadow file with its pending patch: `SH[k]`, `PM[k]`, `PV[k]` for k = `addr` (R14, R17). -/
structure ShadowCell where
  addr : Addr
  sh   : Word
  pm   : Word
  pv   : Word
  deriving DecidableEq, Repr

/-- The level of the enable line `EN` (R22). -/
inductive EnableLevel where
  | undriven
  | low
  | high
  deriving DecidableEq, Repr

/-- The complete state of the block between two operations (R13): one cell per k of `SHADOW_SET`, the status latch `ST` (R19), the enable line `EN` (R22; `undriven` where there is no line, log 14). -/
structure Rab where
  cells : List ShadowCell
  st    : Option Byte
  en    : EnableLevel
  deriving DecidableEq, Repr

/-- The block right after reset (R25, R175): every shadow cell at its `SHADOW_RESET`, nothing pending, no status seen, the line undriven. -/
def Rab.construct (cfg : Cfg) : Rab where
  cells := cfg.shadow.map fun e => { addr := e.addr, sh := e.reset, pm := 0, pv := 0 }
  st := none
  en := .undriven

/-- The registers of the reference device: pairs of a register's address and its 32-bit word. The addressable unit is the whole register (R35), so the cells are words (log 18). -/
abbrev Memory := List (Nat × Word)

/-- The reference device `RefDev` (R50, D18): `DEV` and `LATCH`. -/
structure RefDev where
  dev   : Memory
  latch : Word
  deriving DecidableEq, Repr

/-- One exchange the block made: the command frame sent, what came back, and the frame the response belongs to, where one is known (R31, R48). -/
structure ExchangeRecord where
  sent   : Frame
  answer : Answer
  owner  : Option Frame
  deriving DecidableEq, Repr

/-- The environment: Transport Adapter, bus, device and pin driver (R47, R90, R164). -/
structure Env where
  /-- The reference device, where one is attached (D18); none: the oracle of R47 (log 8). -/
  device  : Option RefDev
  /-- The frame the device's response latch belongs to; none where it is unknown (R31, R185, R186; log 11). -/
  bound   : Option Frame
  /-- Answers of the transport still to come, the next first: the "mock transport" of 95_test_vectors.md (log 6). -/
  answers : List Answer
  /-- Answers of the pin driver still to come, the next first (log 20). -/
  pins    : List PinAnswer
  /-- The model's own counter: which free value comes next (log 6). -/
  drawn   : Nat
  /-- The exchanges the block made since reset, the newest first (R46; log 12). -/
  trace   : List ExchangeRecord
  deriving DecidableEq, Repr

/-- How an operation ended (R7, R150). -/
inductive Kind where
  | ok
  | busError
  | pinError
  | refused
  deriving DecidableEq, Repr

/-- The result record `(kind, status, data, frame, flags, valid)`; a field a rule does not set is 0 (R7, R28). -/
structure Result where
  kind   : Kind
  status : Byte     := 0
  data   : Word     := 0
  frame  : Frame    := 0
  flags  : BitVec 4 := 0
  valid  : Bit      := 0
  deriving DecidableEq, Repr

/-- The state of the machine. -/
structure State where
  /-- The straps (R4, R26), fixed: no step writes them (log 1). -/
  cfg     : Cfg
  /-- The block's own state (R13). -/
  rab     : Rab
  /-- The environment (R31, R164). -/
  env     : Env
  /-- What is presented at the inputs, the next first (R27, R30, R32; log 16). -/
  inputs  : List Input
  /-- The level of the reset port `rst`, true = 1 (R32; log 12). -/
  rst     : Bool
  /-- An exchange of the operation in progress never answers: `cmd_ready` stays 0 (R30, R190; log 7). -/
  waiting : Bool
  /-- The results returned, the newest first (R28, R154; log 3). -/
  results : List Result
  deriving DecidableEq, Repr

/-- Why the machine stops. -/
inductive Fault where
  /-- Raised by the step while an exchange has not answered, `rst` is 0 and no level of it is presented: "the operation never completes, `cmd_ready` stays 0 and the block makes no further progress; only reset recovers it" (R190, U10). Safe: the stuck state of the spec (log 7). -/
  | hung
  deriving DecidableEq, Repr

/-- Why the machine gives no meaning. -/
inductive Refusal where
  /-- Raised by an arm of `exec` that has no meaning yet. Safe. No arm raises it now. -/
  | notModelled (mnemonic : String)
  /-- Raised by the step under a configuration that breaks a constraint of R4: "a configuration that fails one is refused, it is not given a meaning" (R4, U29). Safe (log 13). -/
  | badConfiguration
  deriving DecidableEq, Repr

/-- The environment as the block finds it at reset: an oracle of which nothing is known (R31, R47, R176; log 8). -/
def Env.unknown : Env where
  device := none
  bound := none
  answers := []
  pins := []
  drawn := 0
  trace := []

/-- The machine right after reset under a configuration (R25, R32): `rst` just released, nothing presented, nothing returned. -/
def State.construct (cfg : Cfg) : State where
  cfg := cfg
  rab := Rab.construct cfg
  env := Env.unknown
  inputs := []
  rst := false
  waiting := false
  results := []

/-- The machine right after reset (R25), with the straps of the spec's test configuration (R5; DESIGN CHOICE, unsafe, log 2). -/
def State.reset : State := State.construct Cfg.test

end Sys2Proof.Machine
end

