-- ==== Sys2Proof/Machine/Flags.lean ====
section
/-! DEFINITION. The Status Decoder's flags (R115, R116): four Booleans, each one bit of a status byte, and their order on the result port (R28). The block has no other flags (R21). -/

namespace Sys2Proof.Machine

/-- The four named flags of a status byte (R21, R115). -/
structure StatusFlags where
  reset                  : Bool
  driverError            : Bool
  overTemperatureWarning : Bool
  standstill             : Bool
  deriving DecidableEq, Repr

/-- The flags of a status byte (R115). Bits of it that no flag is assigned to are not looked at (R116). -/
def decodeStatus (cfg : Cfg) (sb : Byte) : StatusFlags where
  reset := sb.getLsbD Cfg.statusBitReset
  driverError := sb.getLsbD cfg.statusBitDriverError
  overTemperatureWarning := sb.getLsbD cfg.statusBitOtw
  standstill := sb.getLsbD cfg.statusBitStandstill

/-- `standstill ++ over_temperature_warning ++ driver_error ++ reset`, bit 0 = reset (R28, R115). -/
def StatusFlags.pack (f : StatusFlags) : BitVec 4 :=
  BitVec.ofBool f.standstill ++ BitVec.ofBool f.overTemperatureWarning ++
  BitVec.ofBool f.driverError ++ BitVec.ofBool f.reset

/-- The `flags` field of a result for a status byte (R115). -/
def statusFlags (cfg : Cfg) (sb : Byte) : BitVec 4 := (decodeStatus cfg sb).pack

end Sys2Proof.Machine
end

