-- ==== Sys2Proof/WellFormed.lean ====
section
/-! DEFINITION. Which instructions can be presented at the command port: the port's address operand has 7 bits (R27), so an address operand with bit 7 set has no encoding. Every other operand has the width of its port. -/

namespace Sys2Proof

/-- An address operand fits the port `a : u7` (R27). -/
def fitsPort (a : Byte) : Bool := decide (a.toNat < 128)

/-- The instruction has an encoding on the command port or on the wire (R27, R60, R66). -/
def Instr.wf (i : Instr) : Bool :=
  match i with
  | .rd _ _ => true
  | .wr _ _ => true
  | .enc _ a _ => fitsPort a
  | .dec _ => true
  | .stdec _ => true
  | .rdreg a => fitsPort a
  | .wrreg a _ => fitsPort a
  | .setf k _ _ => fitsPort k
  | .upd k => fitsPort k
  | .getst => true
  | .getsh k => fitsPort k
  | .enable => true
  | .disable => true
  | .reserved0 => true
  | .reservedC => true
  | .reservedD => true
  | .reservedE => true
  | .reservedF => true

end Sys2Proof
end

