-- ==== Sys2Proof/Decode.lean ====
section
/-! DEFINITION. Frame assembly and disassembly (R60, R61, R63, R64), the decoder from what is presented to an instruction (R60, R66, R68), total on any bytes and rejecting by name, and the encoder written from the same tables. -/

namespace Sys2Proof

/-! ## Frames -/

/-- An address masked to its low 7 bits, `a & 0x7F`, and not otherwise checked (R37). -/
def maskAddr (a : Byte) : Byte := a &&& 0x7F#8

/-- A frame from its first byte and its value: the value's bytes big-endian in frame bytes 1 to 4 (R38, R61). -/
def joinFrame (b0 : Byte) (v : Word) : Frame := b0 ++ v

/-- Command-frame assembly `F = w ++ trunc_7(a) ++ v` (R63): byte 0 is `(w << 7) | (a & 0x7F)`. -/
def packFrame (w : Bit) (a : Byte) (v : Word) : Frame :=
  joinFrame ((w.setWidth 8 <<< 7) ||| maskAddr a) v

/-- Byte 0 of a frame: the status byte of a response frame `F[39:32]` (R61, R64), the address byte of a command frame (R60). -/
def frameStatus (f : Frame) : Byte := f.extractLsb' 32 8

/-- Bytes 1 to 4 of a frame, `F[31:0]`, big-endian, unsigned (R38, R60, R64). -/
def frameData (f : Frame) : Word := f.extractLsb' 0 32

/-- The direction bit of a command frame, bit 39 (R60). -/
def frameDir (f : Frame) : Bit := f.extractLsb' 39 1

/-- The address field of a command frame, bits 38:32 (R60). -/
def frameAddr (f : Frame) : Addr := f.extractLsb' 32 7

/-- The five bytes of a frame in transmission order, byte 0 first (R6, R94). -/
def frameBytes (f : Frame) : List Byte :=
  [f.extractLsb' 32 8, f.extractLsb' 24 8, f.extractLsb' 16 8, f.extractLsb' 8 8, f.extractLsb' 0 8]

/-- The frame whose five bytes in transmission order these are. -/
def frameOfBytes (b0 b1 b2 b3 b4 : Byte) : Frame :=
  joinFrame b0 (b1 ++ b2 ++ b3 ++ b4)

/-! ## Decoding what is presented -/

/-- A command frame is a datagram: bit 39 alone selects `RD` (0) or `WR` (1); every one of the 2^40 frames is one (R60, R65). -/
def decodeFrame (f : Frame) : Instr :=
  if frameDir f = 1#1 then .wr (frameAddr f) (frameData f) else .rd (frameAddr f) (frameData f)

/-- A command's operation by its select code; operands an operation does not read are ignored (R66, R67, R68). -/
def decodeCommand (c : Command) : Instr :=
  match c.op.toNat with
  | 0x0 => .reserved0
  | 0x1 => .enc c.dir (c.a.setWidth 8) c.wdata
  | 0x2 => .dec c.fin
  | 0x3 => .stdec (c.wdata.extractLsb' 0 8)
  | 0x4 => .rdreg (c.a.setWidth 8)
  | 0x5 => .wrreg (c.a.setWidth 8) c.wdata
  | 0x6 => .setf (c.a.setWidth 8) c.wmask c.wdata
  | 0x7 => .upd (c.a.setWidth 8)
  | 0x8 => .getst
  | 0x9 => .getsh (c.a.setWidth 8)
  | 0xA => .enable
  | 0xB => .disable
  | 0xC => .reservedC
  | 0xD => .reservedD
  | 0xE => .reservedE
  | _ => .reservedF

/-- The instruction an input stands for; a level of `rst` stands for none (R32: `CONSTRUCT` is no operation of the command port). -/
def Input.instr? : Input → Option Instr
  | .command c => some (decodeCommand c)
  | .frame f => some (decodeFrame f)
  | .rst _ => none

/-! ## Decoding bytes
The spec lays out a command frame as bytes (R60) and gives the command port as separate signals (R27). For the latter the model fixes a 15-byte word of its own (DESIGN CHOICE, safe, log 10): bits 3:0 `op`, 4 `dir`, 11:5 `a`, 43:12 `wdata`, 75:44 `wmask`, 115:76 `fin`, 119:116 zero, lowest byte first. -/

/-- Why bytes stand for no input, by name. -/
inductive Reject where
  /-- Neither the 5 bytes of a frame (R71) nor the 15 bytes of a command word. -/
  | length (n : Nat)
  /-- A command word whose bits 119:116 are not zero. -/
  | padding
  deriving DecidableEq, Repr

/-- The command port's signals from the model's command word (log 10). -/
def commandOfWord (w : BitVec 120) : Command where
  op    := w.extractLsb' 0 4
  dir   := w.extractLsb' 4 1
  a     := w.extractLsb' 5 7
  wdata := w.extractLsb' 12 32
  wmask := w.extractLsb' 44 32
  fin   := w.extractLsb' 76 40

/-- The model's command word of a command (log 10). -/
def wordOfCommand (c : Command) : BitVec 120 :=
  0#4 ++ (c.fin ++ (c.wmask ++ (c.wdata ++ (c.a ++ (c.dir ++ c.op)))))

/-- The number whose bytes these are, the least significant first. -/
def natOfBytes : List Byte → Nat
  | [] => 0
  | b :: bs => b.toNat + 256 * natOfBytes bs

/-- The first n bytes of a number, the least significant first. -/
def bytesOfNat : Nat → Nat → List Byte
  | 0, _ => []
  | n + 1, w => BitVec.ofNat 8 w :: bytesOfNat n (w / 256)

/-- Any bytes to an input or a rejection by name: five bytes are a frame in transmission order (R60, R71), fifteen a command word (log 10). -/
def decodeBytes (bs : List Byte) : Except Reject Input :=
  match bs with
  | [b0, b1, b2, b3, b4] => .ok (.frame (frameOfBytes b0 b1 b2 b3 b4))
  | bs =>
    if bs.length = 15 then
      let w := BitVec.ofNat 120 (natOfBytes bs)
      if w.extractLsb' 116 4 = 0#4 then .ok (.command (commandOfWord w)) else .error .padding
    else .error (.length bs.length)

/-- The bytes of an instruction's word as the hardware has them: 40 bits are a frame, its byte 0 the most significant (R6, R60); at most 8 bits are an `op` code with every other port signal 0, the fifteen bytes of a command word (log 10). -/
def bytesOfTableWord (nbits w : Nat) : List Byte :=
  if nbits = 40 then (bytesOfNat 5 w).reverse
  else if nbits ≤ 8 then bytesOfNat 15 w
  else []

/-- The input an instruction's word stands for, bits numbered as spec/opcode_table.json numbers them. -/
def inputOfTableWord (nbits w : Nat) : Option Input :=
  match decodeBytes (bytesOfTableWord nbits w) with
  | .ok x => some x
  | .error _ => none

/-- The instruction the decoder reads from an instruction's word, bits numbered as spec/opcode_table.json numbers them. -/
def decodeTableWord (nbits w : Nat) : Option Instr :=
  match inputOfTableWord nbits w with
  | some x => x.instr?
  | none => none

/-! ## Encoding -/

/-- A command with every operand signal 0: an operation sets the ones it reads. -/
def Command.of (op : BitVec 4) : Command where
  op := op
  dir := 0
  a := 0
  wdata := 0
  wmask := 0
  fin := 0

/-- The input that presents an instruction (R60, R63, R66): a datagram as its frame, an operation on its select code with its operands on their ports. -/
def encode (i : Instr) : Input :=
  match i with
  | .rd a v => .frame (packFrame 0#1 (a.setWidth 8) v)
  | .wr a v => .frame (packFrame 1#1 (a.setWidth 8) v)
  | .enc dir a v => .command { Command.of 0x1 with dir := dir, a := a.setWidth 7, wdata := v }
  | .dec f => .command { Command.of 0x2 with fin := f }
  | .stdec sb => .command { Command.of 0x3 with wdata := sb.setWidth 32 }
  | .rdreg a => .command { Command.of 0x4 with a := a.setWidth 7 }
  | .wrreg a v => .command { Command.of 0x5 with a := a.setWidth 7, wdata := v }
  | .setf k m b => .command { Command.of 0x6 with a := k.setWidth 7, wmask := m, wdata := b }
  | .upd k => .command { Command.of 0x7 with a := k.setWidth 7 }
  | .getst => .command (Command.of 0x8)
  | .getsh k => .command { Command.of 0x9 with a := k.setWidth 7 }
  | .enable => .command (Command.of 0xA)
  | .disable => .command (Command.of 0xB)
  | .reserved0 => .command (Command.of 0x0)
  | .reservedC => .command (Command.of 0xC)
  | .reservedD => .command (Command.of 0xD)
  | .reservedE => .command (Command.of 0xE)
  | .reservedF => .command (Command.of 0xF)

/-- The bytes that present an input, or none for a level of `rst`. -/
def encodeBytes (x : Input) : Option (List Byte) :=
  match x with
  | .frame f => some (frameBytes f)
  | .command c => some (bytesOfNat 15 (wordOfCommand c).toNat)
  | .rst _ => none

end Sys2Proof
end

