-- ==== Sys2Proof/Machine/Operands.lean ====
section
/-! DEFINITION. The operand forms: which shadow index names a cell (R14, R37), the constants of the configuration and its constraints (R4), field assembly and extraction (R69, R70). -/

namespace Sys2Proof.Machine

/-! ## The configuration -/

/-- k is in `SHADOW_SET` (R4); an index of more than 7 bits is in no set (R37, log 9). -/
def shadowed (cfg : Cfg) (k : Byte) : Bool := cfg.shadow.any fun e => e.addr.setWidth 8 == k

/-- `SHADOW_RESET[k]` (R4); 0 for k outside `SHADOW_SET`, where the spec has no such word and no meaning reads it. -/
def shadowReset (cfg : Cfg) (k : Addr) : Word :=
  match cfg.shadow.find? fun e => e.addr == k with
  | some e => e.reset
  | none => 0

/-- A status bit position that is OPEN: an integer in 1..7 (R4). -/
def statusPosOk (n : Nat) : Bool := decide (1 ≤ n) && decide (n ≤ 7)

/-- The range condition on a row of `FIELDS`: `0 <= lo`, `1 <= width`, `lo + width <= 32` (R4). -/
def fieldRowOk (r : FieldRow) : Bool := decide (1 ≤ r.width) && decide (r.lo + r.width ≤ 32)

/-- No address stands twice: `SHADOW_SET` is a set (R4; DEDUCED, safe, log 23). -/
def distinctAddrs : List ShadowEntry → Bool
  | [] => true
  | e :: es => es.all (fun x => x.addr != e.addr) && distinctAddrs es

/-- The constraints a model must check on a configuration (R4): the three OPEN status positions are in range and pairwise distinct, every row of `FIELDS` is in range, `SHADOW_SET` is a set. -/
def cfgOk (cfg : Cfg) : Bool :=
  statusPosOk cfg.statusBitDriverError && statusPosOk cfg.statusBitOtw &&
  statusPosOk cfg.statusBitStandstill &&
  (cfg.statusBitDriverError != cfg.statusBitOtw) &&
  (cfg.statusBitDriverError != cfg.statusBitStandstill) &&
  (cfg.statusBitOtw != cfg.statusBitStandstill) &&
  cfg.fields.all fieldRowOk && distinctAddrs cfg.shadow

/-! ## Shadow cells -/

/-- A cell is the one an index names: the whole index is compared, so an index of more than 7 bits names none (R14, R37, log 9). -/
def ShadowCell.named (c : ShadowCell) (k : Byte) : Bool := c.addr.setWidth 8 == k

/-- The cell of register k, where there is one (R14). -/
def Rab.cell? (r : Rab) (k : Byte) : Option ShadowCell := r.cells.find? fun c => c.named k

/-- The block with the cell of register k changed and every other cell as it was. -/
def Rab.updateCell (r : Rab) (k : Byte) (f : ShadowCell → ShadowCell) : Rab :=
  { r with cells := r.cells.map fun c => if c.named k then f c else c }

/-- The word a flush of the cell would send now: `(SH & ~PM) | PV` (R105, R109). -/
def ShadowCell.merged (c : ShadowCell) : Word := (c.sh &&& ~~~c.pm) ||| c.pv

/-- A field change recorded: `PM <- PM | m`, `PV <- (PV & ~m) | (b & m)` (R101). -/
def ShadowCell.patch (m b : Word) (c : ShadowCell) : ShadowCell :=
  { c with pm := c.pm ||| m, pv := (c.pv &&& ~~~m) ||| (b &&& m) }

/-- A confirmed flush: the word sent becomes the shadow and nothing is pending (R105 step d). -/
def ShadowCell.commit (w : Word) (c : ShadowCell) : ShadowCell :=
  { c with sh := w, pm := 0, pv := 0 }

/-- A confirmed raw write under the policy `update`: the shadow takes the word, what is pending stays (R132). -/
def ShadowCell.overwrite (w : Word) (c : ShadowCell) : ShadowCell := { c with sh := w }

/-! ## Named fields -/

/-- The mask of a field: `((1 << width) - 1) << lo` (R69). -/
def fieldMask (lo width : Nat) : Word := BitVec.ofNat 32 (2 ^ width - 1) <<< lo

/-- The bits of a field's new value: `(val << lo) & m`; bits of val at or above width are dropped (R69). -/
def fieldBits (lo width val : Nat) : Word := (BitVec.ofNat 32 val <<< lo) &&& fieldMask lo width

/-- A field's value in a register value: `(v >> lo) & ((1 << width) - 1)` (R70). -/
def fieldGet (lo width : Nat) (v : Word) : Word := (v >>> lo) &&& BitVec.ofNat 32 (2 ^ width - 1)

/-- A one-bit field read as a Boolean, 1 = true (R70). -/
def fieldFlag (lo : Nat) (v : Word) : Bool := fieldGet lo 1 v == 1#32

/-- The row of `FIELDS` with a name. -/
def fieldRow? (cfg : Cfg) (name : String) : Option FieldRow := cfg.fields.find? fun r => r.name == name

end Sys2Proof.Machine
end

