-- ==== Sys2Proof/Machine/Ops.lean ====
section
/-! DEFINITION. The operations the meanings share: the reference device's registers, the environment's answer, one exchange and its wrapper `Xchg` (R90, R91, R92), driving the enable line (R140), ending an operation with a result or with an error (R7, R151, R156, R157, R161), and reset (R25, R32). -/

namespace Sys2Proof.Machine

/-! ## The reference device's registers (R50, D18)
A list of (address, word), addresses strictly rising and below 128, no word 0: an unlisted register reads 0 (D18). -/

/-- The content of register a. -/
def Memory.read (m : Memory) (a : Nat) : Word :=
  match m with
  | [] => 0
  | (k, w) :: rest => if k = a then w else Memory.read rest a

/-- Register a gets the word w; writing 0 takes the entry out. -/
def Memory.write (m : Memory) (a : Nat) (w : Word) : Memory :=
  match m with
  | [] => if w = 0 then [] else [(a, w)]
  | (k, x) :: rest =>
    if a < k then (if w = 0 then (k, x) :: rest else (a, w) :: (k, x) :: rest)
    else if a = k then (if w = 0 then rest else (a, w) :: rest)
    else (k, x) :: Memory.write rest a w

/-- The canonical form from address lo on. -/
def Memory.wfFrom (lo : Nat) (m : Memory) : Bool :=
  match m with
  | [] => true
  | (k, w) :: rest => decide (lo ≤ k) && decide (k < 128) && (w != 0) && Memory.wfFrom (k + 1) rest

/-- The canonical form: addresses strictly rising and below 128, no entry that reads as an unlisted one. -/
def Memory.wf (m : Memory) : Bool := Memory.wfFrom 0 m

/-- The first n registers filled by a function. -/
def Memory.fill (f : Addr → Word) : Nat → Memory
  | 0 => []
  | n + 1 => (Memory.fill f n).write n (f (BitVec.ofNat 7 n))

/-- Registers that hold the `SHADOW_RESET` words of a shadow set and 0 elsewhere (D18). -/
def Memory.ofShadow : List ShadowEntry → Memory
  | [] => []
  | e :: es => (Memory.ofShadow es).write e.addr.toNat e.reset

/-- The reference device as a vector finds it: `DEV[k] = SHADOW_RESET[k]` for k in `SHADOW_SET`, else 0, `LATCH = 0` (D18). -/
def RefDev.initial (cfg : Cfg) : RefDev where
  dev := Memory.ofShadow cfg.shadow
  latch := 0

/-- The reference device takes a datagram (D18; R82): a write stores the value and latches it, a read latches the register's content. -/
def RefDev.take (i : Instr) (d : RefDev) : RefDev :=
  match i with
  | .wr a v => { dev := d.dev.write a.toNat v, latch := v }
  | .rd a _ => { d with latch := d.dev.read a.toNat }
  | _ => d

/-- The reference device after exchange number n failed: both its registers and its latch are free (D18, R186). -/
def RefDev.free (n : Nat) : RefDev where
  dev := Memory.fill (Config.freeDevWord n) 128
  latch := Config.freeLatch n

/-! ## The environment -/

/-- What the transport answers next: the next scripted answer, else a free value (R47, log 6). -/
def Env.draw (e : Env) : Answer :=
  match e.answers with
  | a :: _ => a
  | [] => Config.freeAnswer e.drawn

/-- What the next exchange returns. With the reference device attached a response is the drawn status byte and then `LATCH` (D18, C10); else it is what was drawn (R47). -/
def Env.reply (e : Env) : Answer :=
  match e.draw, e.device with
  | .ok r, some d => .ok (joinFrame (frameStatus r) d.latch)
  | .ok r, none => .ok r
  | .fault, _ => .fault
  | .silence, _ => .silence

/-- The device takes a datagram: the next response belongs to it (R31, R48, R82). -/
def Env.take (i : Instr) (f : Frame) (e : Env) : Env :=
  { e with device := e.device.map (RefDev.take i), bound := some f }

/-- After an exchange that did not succeed nothing is known of the device (R186). -/
def Env.forget (e : Env) : Env :=
  { e with device := e.device.map (fun _ => RefDev.free e.drawn), bound := none }

/-- The environment after one exchange of the frame c (R90): the answer is consumed, the exchange recorded, and the device has taken the datagram if it succeeded. -/
def Env.exchange (c : Frame) (e : Env) : Env :=
  let after := match e.reply with
    | .ok _ => e.take (decodeFrame c) c
    | .fault => e.forget
    | .silence => e.forget
  { after with
    answers := e.answers.tail
    drawn := e.drawn + 1
    trace := { sent := c, answer := e.reply, owner := e.bound } :: e.trace }

/-- What the pin driver answers next (R140, U23; log 20). -/
def Env.pinDraw (e : Env) : PinAnswer :=
  match e.pins with
  | p :: _ => p
  | [] => Config.freePin e.drawn

/-- The environment after one pin write. -/
def Env.pinWrite (e : Env) : Env := { e with pins := e.pins.tail, drawn := e.drawn + 1 }

/-! ## Ending an operation -/

/-- The operation's result is driven on the result port (R7, R28). -/
def State.respond (r : Result) (s : State) : State := { s with results := r :: s.results }

/-- TAKING AN EXCEPTION, one shared operation (R6 `raise`, R151, R156, R157, R161): the operation ends at once with that kind and every other field 0; "no context is saved, no mode changes, no mask changes and control goes nowhere inside the block". There is no return from it (R162) and nothing of it is kept in the block (R154). -/
def State.raise (k : Kind) (s : State) : State := s.respond { kind := k }

/-- The operation in progress waits for an exchange that never answers: no result (R190, log 7). -/
def State.hang (s : State) : State := { s with waiting := true }

/-! ## The exchange as the block makes it -/

/-- `ST` after an exchange: `some` of byte 0 of a response, unchanged without one (R20). -/
def latchStatus (a : Answer) (st : Option Byte) : Option Byte :=
  match a with
  | .ok r => some (frameStatus r)
  | .fault => st
  | .silence => st

/-- The machine after one exchange of the frame c (R90, R92). -/
def State.exchange (c : Frame) (s : State) : State :=
  { s with
    rab := { s.rab with st := latchStatus s.env.reply s.rab.st }
    env := s.env.exchange c }

/-- `Xchg(c)` (R92) and what the operation does with the response: `ST` is latched and the operation goes on; a fault raises `BusError`, no response is read and nothing more is attempted (R91, R152); silence leaves it waiting (R190). -/
def State.xchg (c : Frame) (s : State) (go : Frame → State → State) : State :=
  match s.env.reply with
  | .ok r => go r (s.exchange c)
  | .fault => (s.exchange c).raise .busError
  | .silence => (s.exchange c).hang

/-- The shadow cell of register k changed, all else as it was. -/
def State.updateCell (k : Byte) (f : ShadowCell → ShadowCell) (s : State) : State :=
  { s with rab := s.rab.updateCell k f }

/-! ## The enable line -/

/-- `1 ^ INVERT_ENABLE` or `0 ^ INVERT_ENABLE` as a level (R140, R141). -/
def enableLevel (cfg : Cfg) (on : Bool) : EnableLevel :=
  if xor on cfg.invertEnable then .high else .low

/-- `SetPin` and what follows (R140, R141, R142, R157): without an enable line the operation is refused; else the driver is asked, and on its failure `EN` keeps its value. -/
def State.drivePin (on : Bool) (s : State) : State :=
  if s.cfg.hasEnable then
    match s.env.pinDraw with
    | .ok =>
      State.respond { kind := .ok }
        { s with rab := { s.rab with en := enableLevel s.cfg on }, env := s.env.pinWrite }
    | .fault => State.raise .pinError { s with env := s.env.pinWrite }
  else s.raise .refused

/-! ## Reset -/

/-- Reset of the block (R25, R32, R175, R176): the block's state takes its reset values and no operation is in progress; no exchange is made, the device and the straps are untouched, and no response is bound to a request the block knows of (R185). The record of exchanges starts anew; the results returned stay (log 12). -/
def State.resetBlock (s : State) : State :=
  { s with
    rab := Rab.construct s.cfg
    env := { s.env with bound := none, trace := [] }
    waiting := false }

/-- The reset port is driven to a level (R32): while it is 1, and when it is released, the block's state takes its reset values; a 0 on a port that is 0 already is nothing new. -/
def State.driveRst (level : Bool) (s : State) : State :=
  if level || s.rst then { s.resetBlock with rst := level } else s

/-- `cmd_ready` (R27, R30, R32): 0 while `rst` is 1, and while an operation is in progress, which between two steps is only while an exchange has not answered (R190). -/
def State.cmdReady (s : State) : Bool := !s.rst && !s.waiting

/-- The next level of `rst` presented and what is presented beside it: the reset port is looked at whatever stands on the other ports (R32; log 12). -/
def nextRst : List Input → Option (Bool × List Input)
  | [] => none
  | .rst level :: rest => some (level, rest)
  | .command c :: rest => (nextRst rest).map fun p => (p.1, .command c :: p.2)
  | .frame f :: rest => (nextRst rest).map fun p => (p.1, .frame f :: p.2)

/-- The machine with the reference device attached as a vector finds it (D18). -/
def State.attachRefDev (s : State) : State :=
  { s with env := { s.env with device := some (RefDev.initial s.cfg) } }

end Sys2Proof.Machine
end

