-- ==== Sys2Proof/Machine/Access.lean ====
section
/-! DEFINITION. The register access operations (R126, R128, R130 to R133). -/

namespace Sys2Proof.Machine

/-- `RDREG a` (R126, R128): the same read datagram twice; the first response's data is discarded. -/
def execRdreg (a : Byte) (s : State) : Host.Outcome State Fault Refusal :=
  .next <|
    let c := packFrame 0#1 a 0#32
    s.xchg c fun _ s1 => s1.xchg c fun r2 s2 => s2.respond { kind := .ok, data := frameData r2 }

/-- The result of a write: the DataPacket `(status, data)` of the write's own response (R131). -/
def dataPacket (r : Frame) : Result := { kind := .ok, status := frameStatus r, data := frameData r }

/-- `WRREG a, v` (R130, R131, R132, R133): one exchange; a register with a shadow cell by the policy `RAW_WRITE_TO_SHADOWED`. -/
def execWrreg (a : Byte) (v : Word) (s : State) : Host.Outcome State Fault Refusal :=
  .next <|
    let k := maskAddr a
    match s.rab.cell? k, s.cfg.rawWrite with
    | some _, .refuse => s.raise .refused
    | some _, .update => s.xchg (packFrame 1#1 a v) fun r s1 =>
        (s1.updateCell k (ShadowCell.overwrite v)).respond (dataPacket r)
    | some _, .bypass => s.xchg (packFrame 1#1 a v) fun r s1 => s1.respond (dataPacket r)
    | none, _ => s.xchg (packFrame 1#1 a v) fun r s1 => s1.respond (dataPacket r)

end Sys2Proof.Machine
end

