-- ==== Sys2Proof/Machine/Codec.lean ====
section
/-! DEFINITION. The Frame Codec's operations (R80, R83): pure, total, no state read or written but the result. -/

namespace Sys2Proof.Machine

/-- `ENC dir, a, v` (R80, R81): v is placed whatever dir is. -/
def execEnc (dir : Bit) (a : Byte) (v : Word) (s : State) : Host.Outcome State Fault Refusal :=
  .next (s.respond { kind := .ok, frame := packFrame dir a v })

/-- `DEC f` (R83). -/
def execDec (f : Frame) (s : State) : Host.Outcome State Fault Refusal :=
  .next (s.respond { kind := .ok, status := frameStatus f, data := frameData f })

end Sys2Proof.Machine
end

