-- ==== Sys2Proof/Machine/Enable.lean ====
section
/-! DEFINITION. The enable line's operations (R140, R141, R142, R157). Each drives a fixed level; neither toggles (C11). -/

namespace Sys2Proof.Machine

/-- `ENABLE` (R140). -/
def execEnable (s : State) : Host.Outcome State Fault Refusal := .next (s.drivePin true)

/-- `DISABLE` (R141). -/
def execDisable (s : State) : Host.Outcome State Fault Refusal := .next (s.drivePin false)

end Sys2Proof.Machine
end

