-- ==== Sys2Proof/Machine/Reserved.lean ====
section
/-! DEFINITION. The reserved operation codes (R68): the command "ends with `kind = REFUSED`, performs no exchange and changes no state". -/

namespace Sys2Proof.Machine

/-- Operation code `0x0` (R68). -/
def execReserved0 (s : State) : Host.Outcome State Fault Refusal := .next (s.raise .refused)

/-- Operation code `0xC` (R68). -/
def execReservedC (s : State) : Host.Outcome State Fault Refusal := .next (s.raise .refused)

/-- Operation code `0xD` (R68). -/
def execReservedD (s : State) : Host.Outcome State Fault Refusal := .next (s.raise .refused)

/-- Operation code `0xE` (R68). -/
def execReservedE (s : State) : Host.Outcome State Fault Refusal := .next (s.raise .refused)

/-- Operation code `0xF` (R68). -/
def execReservedF (s : State) : Host.Outcome State Fault Refusal := .next (s.raise .refused)

end Sys2Proof.Machine
end

