-- ==== Sys2Proof/Machine/Shadow.lean ====
section
/-! DEFINITION. The Shadow Register Store's operations (R101, R105, R107, R109). -/

namespace Sys2Proof.Machine

/-- `SETF k, m, b` (R101). -/
def execSetf (k : Byte) (m b : Word) (s : State) : Host.Outcome State Fault Refusal :=
  .next <|
    match s.rab.cell? k with
    | none => s.raise .refused
    | some _ => (s.updateCell k (ShadowCell.patch m b)).respond { kind := .ok }

/-- `UPD k` (R105, R106, R107): the merged word is written in one exchange and committed only if it succeeded. -/
def execUpd (k : Byte) (s : State) : Host.Outcome State Fault Refusal :=
  .next <|
    match s.rab.cell? k with
    | none => s.raise .refused
    | some c => s.xchg (packFrame 1#1 k c.merged) fun r s1 =>
        (s1.updateCell k (ShadowCell.commit c.merged)).respond
          { kind := .ok, status := frameStatus r, data := frameData r }

/-- `GETSH k` (R109). -/
def execGetsh (k : Byte) (s : State) : Host.Outcome State Fault Refusal :=
  .next <|
    match s.rab.cell? k with
    | none => s.raise .refused
    | some c => s.respond { kind := .ok, data := c.sh, frame := c.merged.setWidth 40 }

end Sys2Proof.Machine
end

