-- ==== Sys2Proof/Machine/Status.lean ====
section
/-! DEFINITION. The Status Decoder's operations (R115, R119). -/

namespace Sys2Proof.Machine

/-- `STDEC s` (R115, R116): the byte is returned raw beside its flags. -/
def execStdec (sb : Byte) (s : State) : Host.Outcome State Fault Refusal :=
  .next (s.respond { kind := .ok, status := sb, flags := statusFlags s.cfg sb })

/-- What `GETST` returns for a status latch (R119). -/
def latchedStatus (cfg : Cfg) (st : Option Byte) : Result :=
  match st with
  | some sb => { kind := .ok, valid := 1, status := sb, flags := statusFlags cfg sb }
  | none => { kind := .ok }

/-- `GETST` (R119). -/
def execGetst (s : State) : Host.Outcome State Fault Refusal :=
  .next (s.respond (latchedStatus s.cfg s.rab.st))

end Sys2Proof.Machine
end

