-- ==== Sys2Proof/Machine/Wire.lean ====
section
/-! DEFINITION. The two wire datagrams as the device takes them (R82). They are the device's half of an exchange: the frame asks the device to store or to present a register, and the next response belongs to it. "Flags, exceptions: none at the wire level"; the block's own state is not touched (R36, R47, R82; DEDUCED, log 5). -/

namespace Sys2Proof.Machine

/-- `RD a`: the device presents register a's content in the response of the next exchange (R82). -/
def execRd (a : Addr) (v : Word) (s : State) : Host.Outcome State Fault Refusal :=
  .next { s with env := s.env.take (.rd a v) (packFrame 0#1 (a.setWidth 8) v) }

/-- `WR a, v`: the device stores v in register a (R82). -/
def execWr (a : Addr) (v : Word) (s : State) : Host.Outcome State Fault Refusal :=
  .next { s with env := s.env.take (.wr a v) (packFrame 1#1 (a.setWidth 8) v) }

end Sys2Proof.Machine
end

