-- ==== Sys2Proof/Machine/Dispatch.lean ====
section
/-! DEFINITION. One arm per instruction. -/

namespace Sys2Proof.Machine

/-- The meaning of an instruction (R136). -/
def exec (i : Instr) (s : State) : Host.Outcome State Fault Refusal :=
  match i with
  | .rd a v => Sys2Proof.Machine.execRd a v s
  | .wr a v => Sys2Proof.Machine.execWr a v s
  | .enc dir a v => Sys2Proof.Machine.execEnc dir a v s
  | .dec f => Sys2Proof.Machine.execDec f s
  | .stdec sb => Sys2Proof.Machine.execStdec sb s
  | .rdreg a => Sys2Proof.Machine.execRdreg a s
  | .wrreg a v => Sys2Proof.Machine.execWrreg a v s
  | .setf k m b => Sys2Proof.Machine.execSetf k m b s
  | .upd k => Sys2Proof.Machine.execUpd k s
  | .getst => Sys2Proof.Machine.execGetst s
  | .getsh k => Sys2Proof.Machine.execGetsh k s
  | .enable => Sys2Proof.Machine.execEnable s
  | .disable => Sys2Proof.Machine.execDisable s
  | .reserved0 => Sys2Proof.Machine.execReserved0 s
  | .reservedC => Sys2Proof.Machine.execReservedC s
  | .reservedD => Sys2Proof.Machine.execReservedD s
  | .reservedE => Sys2Proof.Machine.execReservedE s
  | .reservedF => Sys2Proof.Machine.execReservedF s

end Sys2Proof.Machine
end

