-- ==== Sys2Proof/Machine/Step.lean ====
section
/-! DEFINITION. One step: the next input is taken (R23, R30, R32) and the operation it stands for runs whole (R125). -/

namespace Sys2Proof.Machine

/-- One step. A configuration that breaks R4 has no meaning (U29). While `cmd_ready` is 1 the next input is taken: nothing presented is an idle step (R30; log 15), a level of `rst` drives the reset port (R32), an operation runs whole (R125). While it is 0 only `rst` is looked at (R30, R32): held at 1 it holds the block at its reset values; an exchange that has not answered leaves the block stuck until `rst` rises (R190). -/
def step (s : State) : Host.Outcome State Fault Refusal :=
  if cfgOk s.cfg then
    if s.cmdReady then
      match s.inputs with
      | [] => .next s
      | .rst level :: rest => .next (State.driveRst level { s with inputs := rest })
      | .command c :: rest => exec (decodeCommand c) { s with inputs := rest }
      | .frame f :: rest => exec (decodeFrame f) { s with inputs := rest }
    else
      match nextRst s.inputs with
      | some (level, rest) => .next (State.driveRst level { s with inputs := rest })
      | none => if s.rst then .next s.resetBlock else .fault .hung
  else .refused .badConfiguration

/-- The machine with an instruction's word presented next, bits numbered as spec/opcode_table.json numbers them, and ready to take it (log 16). -/
def State.withFetchWord (s : State) (nbits w : Nat) : State :=
  match inputOfTableWord nbits w with
  | some x => { s with inputs := x :: s.inputs, rst := false, waiting := false }
  | none => s

end Sys2Proof.Machine
end

