-- ==== Sys2Proof/Machine/Ports.lean ====
section
/-! DEFINITION. The ports' signals as views of the state between two steps (R27, R28, R29; `cmd_ready` is `State.cmdReady`): which pulse comes in which cycle is timing and no part of the model (R30, D2; log 21). -/

namespace Sys2Proof.Machine

/-- `res_kind`: the result codes `OK` 0, `BUS_ERROR` 1, `PIN_ERROR` 2, `REFUSED` 3 (R7, R150). -/
def Kind.code (k : Kind) : BitVec 2 :=
  match k with
  | .ok => 0
  | .busError => 1
  | .pinError => 2
  | .refused => 3

/-- The signals of the result port (R28). -/
structure ResultPort where
  resKind    : BitVec 2
  resStatus  : Byte
  resData    : Word
  resFrame   : Frame
  resFlags   : BitVec 4
  resValidSt : Bit
  deriving DecidableEq, Repr

/-- A result on the result port (R28). -/
def Result.port (r : Result) : ResultPort where
  resKind := r.kind.code
  resStatus := r.status
  resData := r.data
  resFrame := r.frame
  resFlags := r.flags
  resValidSt := r.valid

/-- What the result port shows last, none before the first result (R28). -/
def State.resultPort (s : State) : Option ResultPort := s.results.head?.map Result.port

/-- The signals of the transport port for one exchange (R29): `x_done` pulses if the adapter answered, `x_fault` tells a fault, `x_rsp` is meaningful without one. -/
structure TransportPort where
  xCmd   : Frame
  xDone  : Bool
  xFault : Bool
  xRsp   : Option Frame
  deriving DecidableEq, Repr

/-- `x_start` (R29, R32): the block starts an exchange in the step that leaves this state. The cycle of the pulse within the step is timing (log 21). -/
def State.xStart (s : State) : Bool :=
  match step s with
  | .next t => decide (s.env.trace.length < t.env.trace.length)
  | .fault _ => false
  | .refused _ => false

/-- The transport port's signals of one exchange (R29). -/
def ExchangeRecord.port (x : ExchangeRecord) : TransportPort :=
  match x.answer with
  | .ok r => { xCmd := x.sent, xDone := true, xFault := false, xRsp := some r }
  | .fault => { xCmd := x.sent, xDone := true, xFault := true, xRsp := none }
  | .silence => { xCmd := x.sent, xDone := false, xFault := false, xRsp := none }

end Sys2Proof.Machine
end

