-- ==== Sys2Proof/Machine/Pseudo.lean ====
section
/-! DEFINITION. The pseudo-operations (R72, R135): each expands to exactly the operation shown and has no semantics of its own. -/

namespace Sys2Proof.Machine

/-- What a pseudo-operation expands to (R72): an operation, the pure value of a getter on the host's side, or reset. -/
inductive Expansion where
  | operation (i : Instr)
  | value (v : Word)
  | reset
  deriving DecidableEq, Repr

/-- The named setter of a field: it exists only for an `rw` field of a shadowed register (R72, R104). -/
def expandSetter (cfg : Cfg) (name : String) (val : Nat) : Option Instr :=
  match fieldRow? cfg name with
  | some r =>
    if r.access = .rw ∧ shadowed cfg (r.addr.setWidth 8) then
      some (.setf (r.addr.setWidth 8) (fieldMask r.lo r.width) (fieldBits r.lo r.width val))
    else none
  | none => none

/-- The expansion of a pseudo-operation (R72), none where it does not exist and the program is refused ("rejected at compile time"). -/
def expandPseudo (cfg : Cfg) (p : Pseudo) : Option Expansion :=
  match p with
  | .clrgstat => some (.operation (.wrreg (cfg.addrGstat.setWidth 8) cfg.gstatClearValue))
  | .rdgstat => some (.operation (.rdreg (cfg.addrGstat.setWidth 8)))
  | .rddrvst => some (.operation (.rdreg (cfg.addrDrvStatus.setWidth 8)))
  | .rdoffs => some (.operation (.rdreg (cfg.addrOffsetRead.setWidth 8)))
  | .setfld name val => (expandSetter cfg name val).map .operation
  | .update k => if shadowed cfg k then some (.operation (.upd k)) else none
  | .getfld name v => (fieldRow? cfg name).map fun r => .value (fieldGet r.lo r.width v)
  | .construct => some .reset

/-- What an expansion presents to the machine: an operation its command, reset a pulse of `rst`, a getter nothing (R32, R72). -/
def Expansion.inputs (x : Expansion) : List Input :=
  match x with
  | .operation i => [encode i]
  | .value _ => []
  | .reset => [.rst true, .rst false]

/-- The host presents one more thing, after what is already presented (R30). -/
def State.present (xs : List Input) (s : State) : State := { s with inputs := s.inputs ++ xs }

end Sys2Proof.Machine
end

