-- ==== Sys2Proof/Safety.lean ====
section
/-! DEFINITION. The terms the statements use: what the record of exchanges says (R16, R19), the invariants of the machine, and a list of operations run one after another (R23, R125). -/

namespace Sys2Proof.Machine

/-! ## What the record of exchanges says -/

/-- The value an exchange is known to have written to register k: it carried `WR k, v` and the transport reported success (R16, R189). -/
def ExchangeRecord.wrote (x : ExchangeRecord) (k : Addr) : Option Word :=
  match x.answer, decodeFrame x.sent with
  | .ok _, .wr a v => if a = k then some v else none
  | _, _ => none

/-- "The value carried by the last `WR k` datagram whose exchange the transport reported as successful since reset", if there was one (R16). -/
def lastWritten (k : Addr) (trace : List ExchangeRecord) : Option Word :=
  trace.findSome? fun x => x.wrote k

/-- "Byte 0 of the response frame of the most recent successful exchange since reset", if there was one (R19). -/
def lastStatus (trace : List ExchangeRecord) : Option Byte :=
  trace.findSome? fun x => match x.answer with
    | .ok r => some (frameStatus r)
    | _ => none

/-! ## Invariants -/

/-- The configuration meets R4 and the shadow file has one cell per member of `SHADOW_SET`, in its order, and no other (R14). -/
def State.FileShape (s : State) : Prop :=
  cfgOk s.cfg = true ∧ s.rab.cells.map (·.addr) = s.cfg.shadow.map (·.addr)

/-- `PV[k] & ~PM[k] = 0` for every k (R18). -/
def State.PatchInv (s : State) : Prop := ∀ c ∈ s.rab.cells, c.pv &&& ~~~c.pm = 0

/-- The shadow invariant (R16). -/
def State.ShadowInv (s : State) : Prop :=
  ∀ c ∈ s.rab.cells,
    c.sh = (lastWritten c.addr s.env.trace).getD (shadowReset s.cfg c.addr)

/-- The status latch holds the most recent successful exchange's status byte (R19). -/
def State.StatusInv (s : State) : Prop := s.rab.st = lastStatus s.env.trace

/-- Without an enable line nothing is driven (R22; log 14). -/
def State.EnableInv (s : State) : Prop := s.cfg.hasEnable = false → s.rab.en = .undriven

/-- While `rst` is 1 the block's state has the reset values and no operation is in progress (R32). -/
def State.RstInv (s : State) : Prop :=
  s.rst = true → s.rab = Rab.construct s.cfg ∧ s.waiting = false

/-- The reference device's registers, where one is attached, are in canonical form. -/
def State.DeviceInv (s : State) : Prop := ∀ d, s.env.device = some d → d.dev.wf = true

/-- The machine is stuck (R190; log 7): `cmd_ready` is 0 and no step is made, whatever commands or frames are presented, until `rst` rises; a pulse of it recovers the block, with nothing returned. -/
def State.StuckUntilReset (t : State) : Prop :=
  t.cmdReady = false ∧
  (∀ xs : List Input, (∀ x ∈ xs, ∀ level, x ≠ .rst level) → step { t with inputs := xs } = .fault .hung) ∧
  ∀ rest : List Input, ∃ u w : State,
    step { t with inputs := .rst true :: .rst false :: rest } = .next u ∧
    u.rab = Rab.construct t.cfg ∧ u.cmdReady = false ∧ u.results = t.results ∧
    step u = .next w ∧
    w.rab = Rab.construct t.cfg ∧ w.cmdReady = true ∧ w.results = t.results ∧ w.inputs = rest

/-! ## Running operations -/

/-- The state an instruction leaves: every instruction of this machine ends in a next state (R150, R154). -/
def execOr (i : Instr) (s : State) : State :=
  match exec i s with
  | .next t => t
  | .fault _ => s
  | .refused _ => s

/-- A list of operations run one after another, in the order issued (R23, R46). -/
def runOps (is : List Instr) (s : State) : State := is.foldl (fun s i => execOr i s) s

/-- A host operation, not a wire datagram (R60, R66). -/
def isHostOp (i : Instr) : Bool :=
  match i with
  | .rd _ _ => false
  | .wr _ _ => false
  | _ => true

/-- The number of exchanges an operation makes if it is neither refused nor ended by an error (R66, R125). -/
def exchangeCount (i : Instr) : Nat :=
  match i with
  | .rdreg _ => 2
  | .wrreg _ _ => 1
  | .upd _ => 1
  | _ => 0

/-- What is read from register a of the reference device, 0 without one. -/
def State.devRead (s : State) (a : Addr) : Word :=
  match s.env.device with
  | some d => d.dev.read a.toNat
  | none => 0

/-- The `flags` field of a result shows a status byte's four named bits in the order of the result port: bit 0 `reset`, bit 1 `driver_error`, bit 2 `over_temperature_warning`, bit 3 `standstill` (R28, R115). -/
def ShowsFlags (cfg : Cfg) (sb : Byte) (fl : BitVec 4) : Prop :=
  fl.getLsbD 0 = sb.getLsbD 0 ∧ fl.getLsbD 1 = sb.getLsbD cfg.statusBitDriverError ∧
  fl.getLsbD 2 = sb.getLsbD cfg.statusBitOtw ∧ fl.getLsbD 3 = sb.getLsbD cfg.statusBitStandstill

/-- The five bytes of the frame that carries a value behind a first byte (R38, R60, R63). -/
def bytesWith (b0 : Byte) (v : Word) : List Byte :=
  [b0, v.extractLsb' 24 8, v.extractLsb' 16 8, v.extractLsb' 8 8, v.extractLsb' 0 8]

/-- An operation of the shadow store that writes: `SETF` or `UPD` (R101, R105). -/
def isShadowOp (i : Instr) : Bool :=
  match i with
  | .setf _ _ _ => true
  | .upd _ => true
  | _ => false

/-- The bits of register k that some `SETF` of a list covers (R110). -/
def coveredBits (k : Byte) (is : List Instr) : Word :=
  is.foldr (fun i m => match i with
    | .setf k' m' _ => if k' = k then m' ||| m else m
    | _ => m) 0

end Sys2Proof.Machine
end

