-- ==== Sys2Proof/Certificates/Slice0/Obligations.lean ====
section
/-! DEFINITION. The statements for the provers. The spec's rule or section each formalises is named in its docstring. `s.env.reply` is what the environment answers to the next exchange: any of `ok r`, `fault`, `silence` (log 6), with or without the reference device. Rules marked "[decision: see D<n>]" are the spec's own choice of what D00 leaves open; the docstrings name the decision. -/

open Sys2Proof Sys2Proof.Machine

/-! ## Frame Codec -/

/-- R80: `ENC` returns the frame `dir ++ (a & 0x7F) ++ v`, its bytes `[(dir << 7) | (a & 0x7F), v31:24, v23:16, v15:8, v7:0]`, and changes nothing else. -/
def Obligations.EncPacksFrame : Prop :=
  ∀ (dir : Bit) (a : Byte) (v : Word) (s : State), ∃ f : Frame,
    exec (.enc dir a v) s = .next { s with results := { kind := .ok, frame := f } :: s.results } ∧
    f = dir ++ a.setWidth 7 ++ v ∧
    frameBytes f = bytesWith ((dir.setWidth 8 <<< 7) ||| (a &&& 0x7F#8)) v

/-- R83: `DEC` returns byte 0 as the status and bytes 1 to 4 as the big-endian unsigned value, and changes nothing else. -/
def Obligations.DecSplitsFrame : Prop :=
  ∀ (f : Frame) (s : State), ∃ (sb : Byte) (d : Word),
    exec (.dec f) s =
      .next { s with results := { kind := .ok, status := sb, data := d } :: s.results } ∧
    sb = f.extractLsb' 32 8 ∧ d = f.extractLsb' 0 32 ∧
    d = ((f.extractLsb' 24 8).setWidth 32 <<< 24) ||| ((f.extractLsb' 16 8).setWidth 32 <<< 16) |||
      ((f.extractLsb' 8 8).setWidth 32 <<< 8) ||| (f.extractLsb' 0 8).setWidth 32

/-- 40_frame_codec.md section 4 (rule R84, whose byte-0 clause the spec derives): decoding what `ENC` returned gives back the value exactly, and the address byte as the status. -/
def Obligations.DecOfEncRecoversValue : Prop :=
  ∀ (dir : Bit) (a : Byte) (v : Word) (s : State), ∃ (t : State) (r : Result),
    exec (.enc dir a v) s = .next t ∧ t.results = r :: s.results ∧
    exec (.dec r.frame) t = .next { t with results :=
      { kind := .ok, status := (dir.setWidth 8 <<< 7) ||| (a &&& 0x7F#8), data := v } :: t.results }

/-- 40_frame_codec.md section 4 (rule R85, which the spec derives): assembling from a 7-bit address is a bijection onto all frames, and so is disassembling. -/
def Obligations.CodecIsBijective : Prop :=
  Function.Bijective (fun p : Bit × Addr × Word => packFrame p.1 (p.2.1.setWidth 8) p.2.2) ∧
  Function.Bijective (fun f : Frame => (frameStatus f, frameData f))

/-! ## Status Decoder -/

/-- R115 (decision D11 for three positions): `STDEC` returns the byte raw and its four named bits in port order; nothing else changes. -/
def Obligations.StdecShowsFlags : Prop :=
  ∀ (sb : Byte) (s : State), ∃ fl : BitVec 4,
    exec (.stdec sb) s =
      .next { s with results := { kind := .ok, status := sb, flags := fl } :: s.results } ∧
    ShowsFlags s.cfg sb fl

/-- 43_status_decoder.md section 1 (rule R117, which the spec derives): under every legal configuration the byte with only bit 0 set shows `reset` alone; for every byte each flag is the byte's bit at that flag's own position, and the four positions are distinct bits of the byte. -/
def Obligations.ResetFlagStandsAlone : Prop :=
  ∀ s : State, cfgOk s.cfg = true →
    exec (.stdec 0x01#8) s =
      .next { s with results := { kind := .ok, status := 0x01#8, flags := 0b0001#4 } :: s.results } ∧
    ∃ p0 p1 p2 p3 : Nat, p0 = 0 ∧ p1 = s.cfg.statusBitDriverError ∧ p2 = s.cfg.statusBitOtw ∧
      p3 = s.cfg.statusBitStandstill ∧ [p0, p1, p2, p3].Nodup ∧ (∀ p ∈ [p0, p1, p2, p3], p < 8) ∧
      ∀ sb : Byte, ∃ fl : BitVec 4,
        exec (.stdec sb) s =
          .next { s with results := { kind := .ok, status := sb, flags := fl } :: s.results } ∧
        fl.getLsbD 0 = sb.getLsbD p0 ∧ fl.getLsbD 1 = sb.getLsbD p1 ∧
        fl.getLsbD 2 = sb.getLsbD p2 ∧ fl.getLsbD 3 = sb.getLsbD p3

/-- R119 (decision D10): `GETST` returns the latched byte with its flags and `valid` = 1, or `valid` = 0 and zeros before the first successful exchange; nothing else changes. -/
def Obligations.GetstReturnsLatchedStatus : Prop :=
  ∀ s : State,
    (∀ sb : Byte, s.rab.st = some sb → ∃ fl : BitVec 4,
      exec .getst s = .next { s with results :=
        { kind := .ok, valid := 1#1, status := sb, flags := fl } :: s.results } ∧
      ShowsFlags s.cfg sb fl) ∧
    (s.rab.st = none → exec .getst s = .next { s with results :=
      { kind := .ok, valid := 0#1, status := 0#8, flags := 0#4 } :: s.results })

/-! ## Register access -/

/-- R126 (decision D5): `RDREG a` sends the read datagram of a with value 0 twice; after two responses the result is the second one's value, `ST` the second one's status, and nothing else of the block changes. -/
def Obligations.RdregReturnsSecondResponse : Prop :=
  ∀ (a : Byte) (s : State) (c r1 r2 : Frame),
    frameBytes c = [a &&& 0x7F#8, 0, 0, 0, 0] →
    s.env.reply = .ok r1 → (s.env.exchange c).reply = .ok r2 →
    exec (.rdreg a) s = .next { s with
      rab := { s.rab with st := some (r2.extractLsb' 32 8) }
      env := (s.env.exchange c).exchange c
      results := { kind := .ok, data := r2.extractLsb' 0 32 } :: s.results }

/-- R128: a fault at exchange 1 ends `RDREG` with `BUS_ERROR` after that one exchange and leaves `ST`; a fault at exchange 2 leaves `ST` at the first response's status; no shadow state changes. -/
def Obligations.RdregFailsOnEitherExchange : Prop :=
  ∀ (a : Byte) (s : State) (c : Frame), frameBytes c = [a &&& 0x7F#8, 0, 0, 0, 0] →
    (s.env.reply = .fault →
      exec (.rdreg a) s = .next { s with
        env := s.env.exchange c
        results := { kind := .busError } :: s.results }) ∧
    (∀ r1 : Frame, s.env.reply = .ok r1 → (s.env.exchange c).reply = .fault →
      exec (.rdreg a) s = .next { s with
        rab := { s.rab with st := some (r1.extractLsb' 32 8) }
        env := (s.env.exchange c).exchange c
        results := { kind := .busError } :: s.results })

/-- 44_register_access.md section 2 (rule R127, which the spec derives): with a mock transport that answers `R1` then `R2`, whatever `R1` is, the value returned is decoded from `R2`, and the second response answers the read's own first request. -/
def Obligations.ReadDecodedFromSecondResponse : Prop :=
  ∀ (a : Byte) (s : State) (r1 r2 : Frame) (rest : List Answer),
    s.env.device = none → s.env.answers = .ok r1 :: .ok r2 :: rest →
    ∃ (t : State) (c : Frame) (x y : ExchangeRecord),
      exec (.rdreg a) s = .next t ∧
      t.results = { kind := .ok, data := r2.extractLsb' 0 32 } :: s.results ∧
      t.env.trace = y :: x :: s.env.trace ∧
      frameBytes c = [a &&& 0x7F#8, 0, 0, 0, 0] ∧
      x.sent = c ∧ y.sent = c ∧ y.owner = some c ∧ x.owner = s.env.bound

/-- 44_register_access.md section 2 with 92_eei_decisions.md D18 (rules R127 and R50, both the spec's inference or choice): on the reference device `RDREG a` returns what register a holds, whatever its latch held, and writes no register. -/
def Obligations.RdregOnReferenceDevice : Prop :=
  ∀ (a : Byte) (s : State) (d : RefDev) (r1 r2 : Frame) (rest : List Answer),
    s.env.device = some d → s.env.answers = .ok r1 :: .ok r2 :: rest →
    ∃ t : State, exec (.rdreg a) s = .next t ∧
      t.results = { kind := .ok, data := s.devRead (a.setWidth 7) } :: s.results ∧
      ∀ b : Addr, t.devRead b = s.devRead b

/-- R130, R133 (decisions D4, D8): `WRREG a, v` is refused before any exchange for a shadowed address under the policy `refuse`; else it makes one exchange with the frame `WR a, v`: on a response the DataPacket is returned, `ST` latched and, for a shadowed address under `update`, `SH[a]` takes v with `PM[a]` and `PV[a]` as they were; on a fault nothing of the block changes. -/
def Obligations.WrregWritesOnce : Prop :=
  ∀ (a : Byte) (v : Word) (s : State) (c : Frame), s.FileShape →
    frameBytes c = bytesWith (0x80#8 ||| (a &&& 0x7F#8)) v →
    (shadowed s.cfg (a &&& 0x7F#8) = true → s.cfg.rawWrite = .refuse →
      exec (.wrreg a v) s = .next { s with results := { kind := .refused } :: s.results }) ∧
    (¬(shadowed s.cfg (a &&& 0x7F#8) = true ∧ s.cfg.rawWrite = .refuse) →
      (∀ r : Frame, s.env.reply = .ok r →
        exec (.wrreg a v) s = .next { s with
          rab := { s.rab with
            cells := s.rab.cells.map fun x =>
              if x.addr.setWidth 8 = a &&& 0x7F#8 ∧ s.cfg.rawWrite = .update
              then { x with sh := v } else x
            st := some (r.extractLsb' 32 8) }
          env := s.env.exchange c
          results := { kind := .ok, status := r.extractLsb' 32 8,
                       data := r.extractLsb' 0 32 } :: s.results }) ∧
      (s.env.reply = .fault →
        exec (.wrreg a v) s = .next { s with
          env := s.env.exchange c
          results := { kind := .busError } :: s.results }))

/-- 44_register_access.md section 3 and 92_eei_decisions.md D18 (the write echo is general knowledge of the spec, log 8): on the reference device a write of v to a that is not refused (a shadowed, under `refuse`), followed by a read of a, returns v, and no other register changes. -/
def Obligations.WriteThenReadOnReferenceDevice : Prop :=
  ∀ (a : Byte) (v : Word) (s : State) (d : RefDev) (r1 r2 r3 : Frame) (rest : List Answer),
    s.FileShape → s.DeviceInv →
    ¬(shadowed s.cfg (a &&& 0x7F#8) = true ∧ s.cfg.rawWrite = .refuse) → s.env.device = some d →
    s.env.answers = .ok r1 :: .ok r2 :: .ok r3 :: rest →
    ∃ t u : State, exec (.wrreg a v) s = .next t ∧ exec (.rdreg a) t = .next u ∧
      u.results = { kind := .ok, data := v } :: t.results ∧
      ∀ b : Addr, u.devRead b = if b = a.setWidth 7 then v else s.devRead b

/-! ## Shadow Register Store -/

/-- R101 (decision D7): `SETF k, m, b` records the change in `PM[k]` and `PV[k]` and changes nothing else; without a cell it is refused. -/
def Obligations.SetfRecordsPatch : Prop :=
  ∀ (k : Byte) (m b : Word) (s : State), s.FileShape →
    (shadowed s.cfg k = true →
      exec (.setf k m b) s = .next { s with
        rab := { s.rab with cells := s.rab.cells.map fun x =>
          if x.addr.setWidth 8 = k
          then { x with pm := x.pm ||| m, pv := (x.pv &&& ~~~m) ||| (b &&& m) } else x }
        results := { kind := .ok } :: s.results }) ∧
    (shadowed s.cfg k = false →
      exec (.setf k m b) s = .next { s with results := { kind := .refused } :: s.results })

/-- 42_shadow_store.md section 1 (rule R102, which the spec derives): setters of one register compose, the later mask deciding the shared bits; setters with disjoint masks, and setters of different registers, commute; repeating one changes nothing. -/
def Obligations.SettersCompose : Prop :=
  ∀ (k : Byte) (m1 b1 m2 b2 : Word) (s : State), s.FileShape → shadowed s.cfg k = true →
    (runOps [.setf k m1 b1, .setf k m2 b2] s).rab.cells = (s.rab.cells.map fun x =>
      if x.addr.setWidth 8 = k
      then { x with
        pm := x.pm ||| m1 ||| m2
        pv := (((x.pv &&& ~~~m1) ||| (b1 &&& m1)) &&& ~~~m2) ||| (b2 &&& m2) } else x) ∧
    (m1 &&& m2 = 0 →
      (runOps [.setf k m1 b1, .setf k m2 b2] s).rab = (runOps [.setf k m2 b2, .setf k m1 b1] s).rab) ∧
    (∀ k' : Byte, k' ≠ k →
      (runOps [.setf k m1 b1, .setf k' m2 b2] s).rab = (runOps [.setf k' m2 b2, .setf k m1 b1] s).rab) ∧
    (runOps [.setf k m1 b1, .setf k m1 b1] s).rab = (runOps [.setf k m1 b1] s).rab

/-- R105, R107 (decision D7): `UPD k` sends the merged word in one `WR k` frame; on a response the word becomes `SH[k]`, nothing stays pending, `ST` is latched and the DataPacket returned; on a fault `SH`, `PM`, `PV`, `ST` stand as they were; without a cell it is refused. -/
def Obligations.UpdWritesBackWholeWord : Prop :=
  ∀ (k : Byte) (s : State), s.FileShape →
    (∀ x ∈ s.rab.cells, x.addr.setWidth 8 = k → ∀ c : Frame,
      frameBytes c = bytesWith (0x80#8 ||| k) ((x.sh &&& ~~~x.pm) ||| x.pv) →
      (∀ r : Frame, s.env.reply = .ok r →
        exec (.upd k) s = .next { s with
          rab := { s.rab with
            cells := s.rab.cells.map fun y =>
              if y.addr.setWidth 8 = k
              then { y with sh := (x.sh &&& ~~~x.pm) ||| x.pv, pm := 0, pv := 0 } else y
            st := some (r.extractLsb' 32 8) }
          env := s.env.exchange c
          results := { kind := .ok, status := r.extractLsb' 32 8,
                       data := r.extractLsb' 0 32 } :: s.results }) ∧
      (s.env.reply = .fault →
        exec (.upd k) s = .next { s with
          env := s.env.exchange c
          results := { kind := .busError } :: s.results })) ∧
    (shadowed s.cfg k = false →
      exec (.upd k) s = .next { s with results := { kind := .refused } :: s.results })

/-- 42_shadow_store.md section 2 (rule R106, which the spec derives): a flush with nothing pending still makes its exchange, sends `WR k, SH[k]` and leaves the shadow file as it was. -/
def Obligations.UpdWithNothingPendingRewritesShadow : Prop :=
  ∀ (s : State) (x : ShadowCell) (r : Frame), s.FileShape → s.PatchInv →
    x ∈ s.rab.cells → x.pm = 0 → s.env.reply = .ok r →
    ∃ (t : State) (e : ExchangeRecord), exec (.upd (x.addr.setWidth 8)) s = .next t ∧
      t.env.trace = e :: s.env.trace ∧ decodeFrame e.sent = .wr x.addr x.sh ∧
      t.rab.cells = s.rab.cells

/-- 42_shadow_store.md section 2 (rule R108, which the spec derives): two setters then one flush make exactly one exchange, and its write frame has the later setter's bits, the earlier one's where the later does not cover, and every other bit from the prior shadow. -/
def Obligations.WriteBackHasBothFields : Prop :=
  ∀ (s : State) (x : ShadowCell) (mA bA mB bB : Word) (r : Frame), s.FileShape → s.PatchInv →
    x ∈ s.rab.cells → x.pm = 0 → s.env.reply = .ok r →
    ∃ (e : ExchangeRecord) (w : Word),
      (runOps [.setf (x.addr.setWidth 8) mA bA, .setf (x.addr.setWidth 8) mB bB,
        .upd (x.addr.setWidth 8)] s).env.trace = e :: s.env.trace ∧
      decodeFrame e.sent = .wr x.addr w ∧
      w &&& mB = bB &&& mB ∧
      w &&& (mA &&& ~~~mB) = bA &&& mA &&& ~~~mB ∧
      w &&& ~~~(mA ||| mB) = x.sh &&& ~~~(mA ||| mB)

/-- 42_shadow_store.md section 2 (rule R110, which the spec derives): along any sequence of `SETF` and `UPD` from reset, whatever the environment answers, a bit of register k that no `SETF` mask covered is sent in every `WR k` with its `SHADOW_RESET[k]` value. -/
def Obligations.SiblingBitsKeepResetValue : Prop :=
  ∀ (cfg : Cfg) (e : Env) (is : List Instr) (k : Addr) (v : Word) (x : ExchangeRecord),
    cfgOk cfg = true → e.trace = [] → (∀ i ∈ is, isShadowOp i = true) →
    x ∈ (runOps is { State.construct cfg with env := e }).env.trace →
    decodeFrame x.sent = .wr k v →
    v &&& ~~~(coveredBits (k.setWidth 8) is) =
      shadowReset cfg k &&& ~~~(coveredBits (k.setWidth 8) is)

/-- R109 (decision D22): `GETSH k` returns the cached word and the word a flush would send, zero-extended; nothing else changes; without a cell it is refused. -/
def Obligations.GetshReturnsShadowAndView : Prop :=
  ∀ (k : Byte) (s : State), s.FileShape →
    (∀ x ∈ s.rab.cells, x.addr.setWidth 8 = k →
      exec (.getsh k) s = .next { s with results :=
        { kind := .ok, data := x.sh,
          frame := ((x.sh &&& ~~~x.pm) ||| x.pv).setWidth 40 } :: s.results }) ∧
    (shadowed s.cfg k = false →
      exec (.getsh k) s = .next { s with results := { kind := .refused } :: s.results })

/-! ## Enable line -/

/-- R140 (decision D16): `ENABLE` drives the level `1 ^ INVERT_ENABLE`; if the driver fails the result is `PIN_ERROR` and `EN` stands; without an enable line it is refused. -/
def Obligations.EnableDrivesLine : Prop :=
  ∀ s : State,
    (s.cfg.hasEnable = true → s.env.pinDraw = .ok →
      exec .enable s = .next { s with
        rab := { s.rab with en := if s.cfg.invertEnable then .low else .high }
        env := { s.env with pins := s.env.pins.tail, drawn := s.env.drawn + 1 }
        results := { kind := .ok } :: s.results }) ∧
    (s.cfg.hasEnable = true → s.env.pinDraw = .fault →
      exec .enable s = .next { s with
        env := { s.env with pins := s.env.pins.tail, drawn := s.env.drawn + 1 }
        results := { kind := .pinError } :: s.results }) ∧
    (s.cfg.hasEnable = false →
      exec .enable s = .next { s with results := { kind := .refused } :: s.results })

/-- R141 (decision D16): `DISABLE` drives the level `0 ^ INVERT_ENABLE`; if the driver fails the result is `PIN_ERROR` and `EN` stands; without an enable line it is refused. -/
def Obligations.DisableDrivesLine : Prop :=
  ∀ s : State,
    (s.cfg.hasEnable = true → s.env.pinDraw = .ok →
      exec .disable s = .next { s with
        rab := { s.rab with en := if s.cfg.invertEnable then .high else .low }
        env := { s.env with pins := s.env.pins.tail, drawn := s.env.drawn + 1 }
        results := { kind := .ok } :: s.results }) ∧
    (s.cfg.hasEnable = true → s.env.pinDraw = .fault →
      exec .disable s = .next { s with
        env := { s.env with pins := s.env.pins.tail, drawn := s.env.drawn + 1 }
        results := { kind := .pinError } :: s.results }) ∧
    (s.cfg.hasEnable = false →
      exec .disable s = .next { s with results := { kind := .refused } :: s.results })

/-- R142 (decision D16): without an enable line both operations are refused, with no state change. -/
def Obligations.AbsentLineRefusesBoth : Prop :=
  ∀ s : State, s.cfg.hasEnable = false →
    exec .enable s = .next { s with results := { kind := .refused } :: s.results } ∧
    exec .disable s = .next { s with results := { kind := .refused } :: s.results }

/-! ## Reserved codes and wire datagrams -/

/-- R68 (decisions D3, D9): a command with a reserved operation code selects one of the five reserved instructions, and each ends with `REFUSED`, performs no exchange and changes no state. -/
def Obligations.ReservedCodesRefused : Prop :=
  (∀ (s : State) (i : Instr),
    i = .reserved0 ∨ i = .reservedC ∨ i = .reservedD ∨ i = .reservedE ∨ i = .reservedF →
    exec i s = .next { s with results := { kind := .refused } :: s.results }) ∧
  ∀ c : Command,
    (c.op = 0x0 → decodeCommand c = .reserved0) ∧ (c.op = 0xC → decodeCommand c = .reservedC) ∧
    (c.op = 0xD → decodeCommand c = .reservedD) ∧ (c.op = 0xE → decodeCommand c = .reservedE) ∧
    (c.op = 0xF → decodeCommand c = .reservedF)

/-- 40_frame_codec.md section 2 and 92_eei_decisions.md D18 (that the row runs as the device's half of an exchange is the model's choice, log 5): `RD a` binds the next response to its frame and, on the reference device, latches register a; no register and nothing of the block changes. -/
def Obligations.RdDatagramPresentsRegister : Prop :=
  ∀ (a : Addr) (v : Word) (s : State) (c : Frame), frameBytes c = bytesWith (a.setWidth 8) v →
    ∃ t : State, exec (.rd a v) s = .next t ∧ t.env.bound = some c ∧
      (∀ d, s.env.device = some d →
        t.env.device = some { d with latch := s.devRead a }) ∧
      (s.env.device = none → t.env.device = none) ∧
      (∀ b : Addr, t.devRead b = s.devRead b) ∧
      t = { s with env := { s.env with device := t.env.device, bound := t.env.bound } }

/-- 40_frame_codec.md section 2 and 92_eei_decisions.md D18 (as above, log 5): `WR a, v` binds the next response to its frame and, on the reference device, stores v in register a and latches it; every other register and all of the block stand. -/
def Obligations.WrDatagramStoresRegister : Prop :=
  ∀ (a : Addr) (v : Word) (s : State) (c : Frame), s.DeviceInv →
    frameBytes c = bytesWith (0x80#8 ||| a.setWidth 8) v →
    ∃ t : State, exec (.wr a v) s = .next t ∧ t.env.bound = some c ∧
      (∀ d, s.env.device = some d → ∃ d', t.env.device = some d' ∧ d'.latch = v ∧
        ∀ b : Addr, t.devRead b = if b = a then v else s.devRead b) ∧
      (s.env.device = none → t.env.device = none) ∧
      t = { s with env := { s.env with device := t.env.device, bound := t.env.bound } }

/-! ## Exchanges -/

/-- 41_transport_exchange.md section 1 (rule R92): the wrapper `Xchg(c)` latches byte 0 of a response in `ST` and hands the response on; on a fault it raises `BusError` and `ST` is unchanged. -/
def Obligations.XchgLatchesStatusOrRaises : Prop :=
  ∀ (c : Frame) (s : State) (go : Frame → State → State),
    (∀ r : Frame, s.env.reply = .ok r →
      s.xchg c go = go r { s with
        rab := { s.rab with st := some (r.extractLsb' 32 8) }, env := s.env.exchange c }) ∧
    (s.env.reply = .fault →
      s.xchg c go = { s with
        env := s.env.exchange c, results := { kind := .busError } :: s.results })

/-- 20_memory.md section 5 and 70_reset_and_hazards.md section 3 (rules R46, R48, R185, R186). The model's choices in it: the record and the binding (log 11), a silent answer being as a fault (log 7), the reply being the next scripted answer (log 6), and the reference device giving the data (log 8). An exchange is recorded once with its answer and the request it belongs to; after a response the next one belongs to this frame, after a fault or silence to none; the reply is the head of the script, with the device's latch as its data where the reference device is attached. -/
def Obligations.ExchangeIsRecordedAndBound : Prop :=
  ∀ (c : Frame) (e : Env),
    (e.exchange c).trace = { sent := c, answer := e.reply, owner := e.bound } :: e.trace ∧
    (∀ r : Frame, e.reply = .ok r → (e.exchange c).bound = some c) ∧
    ((∀ r : Frame, e.reply ≠ .ok r) → (e.exchange c).bound = none) ∧
    (e.device = none → e.answers ≠ [] → some e.reply = e.answers.head?) ∧
    (∀ (d : RefDev) (r : Frame) (rest : List Answer), e.device = some d → e.answers = .ok r :: rest →
      e.reply = .ok (r.extractLsb' 32 8 ++ d.latch))

/-- 20_memory.md section 1 (rule R36; the wire datagrams are the device's half of an exchange, log 5): only `RDREG` (two), `WRREG` (one) and `UPD` (one) perform exchanges, that many if they end with `OK` and never more; every other host operation makes none and does not reach the device. -/
def Obligations.OnlyAccessOperationsExchange : Prop :=
  ∀ (i : Instr) (s t : State), isHostOp i = true → exec i s = .next t →
    (exchangeCount i = 0 → t.env.trace = s.env.trace ∧ t.env.device = s.env.device ∧
      t.env.bound = s.env.bound) ∧
    ∃ new : List ExchangeRecord, t.env.trace = new ++ s.env.trace ∧
      new.length ≤ exchangeCount i ∧
      (∀ r, t.results = r :: s.results → r.kind = .ok → new.length = exchangeCount i)

/-- R151, R152: a result is `BUS_ERROR` exactly when an exchange of the operation faulted, every other field is then 0, a failed exchange is the operation's last: no retry, and the shadow file and its patches are left untouched. -/
def Obligations.FaultEndsOperationAsBusError : Prop :=
  ∀ (i : Instr) (s t : State), exec i s = .next t →
    ∃ new : List ExchangeRecord, ∃ rs : List Result,
      t.env.trace = new ++ s.env.trace ∧ t.results = rs ++ s.results ∧
      ((∃ r ∈ rs, r.kind = .busError) ↔ ∃ x ∈ new, x.answer = .fault) ∧
      (∀ r ∈ rs, r.kind = .busError → r = { kind := .busError }) ∧
      (∀ x ∈ new.tail, ∃ f : Frame, x.answer = .ok f) ∧
      ((∃ x ∈ new, x.answer = .fault) → t.rab.cells = s.rab.cells)

/-- 60_exceptions.md section 2 (rule R153, which the spec derives; R156, R157): an operation that does not end with `OK` leaves the shadow file, the pending patches and the enable line as they were; a refused one changes nothing but the result, a pin failure nothing of the block. -/
def Obligations.ErrorsLeaveShadowUntouched : Prop :=
  ∀ (i : Instr) (s t : State) (r : Result), exec i s = .next t → t.results = r :: s.results →
    r.kind ≠ .ok →
    t.rab.cells = s.rab.cells ∧ t.rab.en = s.rab.en ∧
    (r.kind = .refused → t = { s with results := { kind := .refused } :: s.results }) ∧
    (r.kind = .pinError → t.rab = s.rab ∧ r = { kind := .pinError } ∧ t.env.trace = s.env.trace)

/-- 70_reset_and_hazards.md section 3 (rule R190, decision D23; the silent answer is the model's, log 7): with `rst` at 0, an operation whose exchange never answers ends its step without a result and leaves the machine stuck until reset. So `RDREG`, `WRREG` (unless refused) and `UPD` of a shadowed register at their first exchange, the block's state as it was, and `RDREG` at its second, where `ST` holds the first response's status. -/
def Obligations.SilentExchangeHangsUntilReset : Prop :=
  ∀ s : State, s.FileShape → s.rst = false →
    (∀ i : Instr, s.env.reply = .silence →
      (∃ a, i = .rdreg a) ∨
      (∃ a v, i = .wrreg a v ∧ ¬(shadowed s.cfg (a &&& 0x7F#8) = true ∧ s.cfg.rawWrite = .refuse)) ∨
      (∃ k, i = .upd k ∧ shadowed s.cfg k = true) →
      ∃ t : State, exec i s = .next t ∧ t.rab = s.rab ∧ t.results = s.results ∧ t.StuckUntilReset) ∧
    (∀ (a : Byte) (c r1 : Frame), frameBytes c = [a &&& 0x7F#8, 0, 0, 0, 0] →
      s.env.reply = .ok r1 → (s.env.exchange c).reply = .silence →
      ∃ t : State, exec (.rdreg a) s = .next t ∧
        t.rab = { s.rab with st := some (r1.extractLsb' 32 8) } ∧ t.results = s.results ∧
        t.StuckUntilReset)

/-! ## Reference device frame -/

/-- 20_memory.md sections 1 and 5 with D18: on the reference device `WRREG` and `UPD` that got a response change the one register they address, computed as the meaning computes it, and every other register reads as before; an operation that makes no exchange changes no register. -/
def Obligations.DeviceStoresOnlyAtAddress : Prop :=
  ∀ (s : State) (d : RefDev) (r : Frame), s.FileShape → s.DeviceInv → s.env.device = some d →
    s.env.reply = .ok r →
    (∀ (a : Byte) (v : Word), ¬(shadowed s.cfg (maskAddr a) = true ∧ s.cfg.rawWrite = .refuse) →
      ∃ t, exec (.wrreg a v) s = .next t ∧
        ∀ b : Addr, t.devRead b = if b.setWidth 8 = maskAddr a then v else s.devRead b) ∧
    (∀ x ∈ s.rab.cells,
      ∃ t, exec (.upd (x.addr.setWidth 8)) s = .next t ∧
        ∀ b : Addr, t.devRead b = if b = x.addr then x.merged else s.devRead b) ∧
    (∀ (i : Instr) (t : State), isHostOp i = true → exchangeCount i = 0 → exec i s = .next t →
      ∀ b : Addr, t.devRead b = s.devRead b)

/-! ## Whole machine -/

/-- 44_register_access.md section 5 and 10_state.md section 2 (rules R136, which the spec derives, and R15): a shadow word changes only by `UPD` of its register or, under `update`, by `WRREG` of it, each with a response; a pending patch changes only by `SETF` or `UPD` of its register. -/
def Obligations.ShadowWrittenOnlyByOwnOperations : Prop :=
  ∀ (i : Instr) (s t : State) (x y : ShadowCell), s.FileShape → exec i s = .next t →
    x ∈ s.rab.cells → y ∈ t.rab.cells → y.addr = x.addr →
    (y.sh ≠ x.sh → (∃ r, s.env.reply = .ok r) ∧
      ((i = .upd (x.addr.setWidth 8) ∧ y.sh = x.merged) ∨
       ∃ a, i = .wrreg a y.sh ∧ maskAddr a = x.addr.setWidth 8 ∧ s.cfg.rawWrite = .update)) ∧
    ((y.pm, y.pv) ≠ (x.pm, x.pv) →
      ((∃ m b, i = .setf (x.addr.setWidth 8) m b) ∨
       (i = .upd (x.addr.setWidth 8) ∧ y.pm = 0 ∧ y.pv = 0)))

/-- 60_exceptions.md section 2 (rule R154, decision D13): nothing of an earlier operation's end is kept in the block: with any other history of results an operation does the same. -/
def Obligations.PastResultsNeverRead : Prop :=
  ∀ (i : Instr) (s t : State) (rs : List Result), exec i s = .next t →
    ∃ new : List Result, t.results = new ++ s.results ∧
      exec i { s with results := rs } = .next { t with results := new ++ rs }

/-- 10_state.md sections 6 and 7 (rules R24(a), R26): the configuration constants behave as straps: no step writes them. -/
def Obligations.StrapsNeverWritten : Prop :=
  ∀ s t : State, step s = .next t → t.cfg = s.cfg

/-- 60_exceptions.md section 1 and 10_state.md section 10 (rules R28, R150): a host operation takes nothing from the inputs and returns exactly one result with one kind, or none if an exchange of it never answers (log 7). -/
def Obligations.OneResultPerOperation : Prop :=
  ∀ (i : Instr) (s t : State), isHostOp i = true → exec i s = .next t →
    t.inputs = s.inputs ∧
    ((t.waiting = s.waiting ∧ ∃ r, t.results = r :: s.results) ∨
     (t.waiting = true ∧ t.results = s.results ∧ ∃ x new, t.env.trace = x :: new ∧ x.answer = .silence))

/-! ## Invariants that every step keeps -/

/-- 10_state.md section 2 and 00_scope.md section 5 (rules R4, R14): a legal configuration with one shadow cell per member of `SHADOW_SET` and no other stays so. -/
def Obligations.StepKeepsFileShape : Prop :=
  ∀ s t : State, s.FileShape → step s = .next t → t.FileShape

/-- 10_state.md section 3 (rule R18, which the spec derives): `PV[k] & ~PM[k] = 0` is kept by every step. -/
def Obligations.StepKeepsPatchInvariant : Prop :=
  ∀ s t : State, s.PatchInv → step s = .next t → t.PatchInv

/-- R16: the shadow equals the value of the last successful `WR k` since reset, or `SHADOW_RESET[k]`: it holds right after reset and every step keeps it, under `bypass` unless the step is a successful `WRREG` of a shadowed register. -/
def Obligations.ShadowEqualsLastConfirmedWrite : Prop :=
  (∀ cfg : Cfg, cfgOk cfg = true → (State.construct cfg).ShadowInv) ∧
  ∀ s t : State, s.FileShape → s.ShadowInv → step s = .next t →
    (s.cfg.rawWrite = .bypass → ∀ (c : Command) (rest : List Input) (a : Byte) (v : Word) (r : Frame),
      s.inputs = .command c :: rest → decodeCommand c = .wrreg a v → s.env.reply = .ok r →
      shadowed s.cfg (a &&& 0x7F#8) = false) →
    t.ShadowInv

/-- R19 (decision D10 for `none`): `ST` is byte 0 of the most recent successful exchange's response since reset, or none: it holds right after reset and every step keeps it; only `GETST` reads it: whatever it holds, every other instruction returns the same results, makes the same exchanges and leaves the same shadow file, patches and line. -/
def Obligations.StatusLatchHoldsLastStatus : Prop :=
  (∀ cfg : Cfg, (State.construct cfg).StatusInv) ∧
  (∀ s t : State, s.StatusInv → step s = .next t → t.StatusInv) ∧
  ∀ (i : Instr) (s t : State) (st : Option Byte), i ≠ .getst → exec i s = .next t →
    ∃ u : State, exec i { s with rab := { s.rab with st := st } } = .next u ∧
      { u with rab := { u.rab with st := t.rab.st } } = t

/-- 10_state.md section 5 (rule R22, decisions D14, D16): only `ENABLE` and `DISABLE` change the line, and only where there is one; what it holds is never read: an instruction does the same whatever it holds, and leaves it or drives it to the same level. -/
def Obligations.EnableLineWrittenNeverRead : Prop :=
  ∀ (i : Instr) (s t : State), exec i s = .next t →
    (t.rab.en ≠ s.rab.en → (i = .enable ∨ i = .disable) ∧ s.cfg.hasEnable = true) ∧
    ∀ l : EnableLevel, ∃ u : State, exec i { s with rab := { s.rab with en := l } } = .next u ∧
      { u with rab := { u.rab with en := t.rab.en } } = t ∧ (u.rab.en = l ∨ u.rab.en = t.rab.en)

/-- 20_memory.md section 1 with D18 (the list form is the model's, log 18): the reference device's registers stay in canonical form, after a fault too. -/
def Obligations.StepKeepsDeviceCanonical : Prop :=
  ∀ s t : State, s.DeviceInv → step s = .next t → t.DeviceInv

/-- 10_state.md section 5 (rule R22; log 14): without an enable line nothing is ever driven. -/
def Obligations.StepKeepsAbsentLineUndriven : Prop :=
  ∀ s t : State, s.EnableInv → step s = .next t → t.EnableInv

/-- 10_state.md section 9: every invariant stated here holds right after reset under every legal configuration, and so at `State.reset` (whose configuration is the model's choice, log 2); the device's holds without the reference device and with it as D18 finds it. -/
def Obligations.InvariantsHoldAtReset : Prop :=
  (∀ cfg : Cfg, cfgOk cfg = true →
    (State.construct cfg).FileShape ∧ (State.construct cfg).PatchInv ∧
    (State.construct cfg).ShadowInv ∧ (State.construct cfg).StatusInv ∧
    (State.construct cfg).EnableInv ∧ (State.construct cfg).RstInv ∧
    (State.construct cfg).DeviceInv ∧ (State.construct cfg).attachRefDev.DeviceInv) ∧
  State.reset.FileShape ∧ State.reset.PatchInv ∧ State.reset.ShadowInv ∧ State.reset.StatusInv ∧
  State.reset.DeviceInv ∧ State.reset.EnableInv ∧ State.reset.RstInv

/-! ## Reset and the step -/

/-- 10_state.md sections 9 and 10, 70_reset_and_hazards.md sections 1 and 3 (the values are R25's, decision D14; that an operation in progress is abandoned, that results, script, pins, straps and device stay and that the record and the binding start anew is log 12, with R32, R185, R193 and the spec-derived R176): `rst` rising, whatever is in progress, and `rst` released give every cell `SH[k] = SHADOW_RESET[k]`, `PM[k] = PV[k] = 0`, and `ST = none`, `EN = undriven`; `cmd_ready` is 0 while `rst` is 1 and 1 after; construction gives the same values. -/
def Obligations.ResetTakesResetValues : Prop :=
  (∀ (s : State) (level : Bool) (rest : List Input), cfgOk s.cfg = true →
    s.inputs = .rst level :: rest → (level = true ∨ s.rst = true) →
    ∃ t : State, step s = .next t ∧
      (∀ x ∈ t.rab.cells, x.sh = shadowReset s.cfg x.addr ∧ x.pm = 0 ∧ x.pv = 0) ∧
      t.rab.cells.map (·.addr) = s.cfg.shadow.map (·.addr) ∧
      t.rab.st = none ∧ t.rab.en = .undriven ∧ t.rst = level ∧ t.cmdReady = !level ∧ t.inputs = rest ∧
      t.env.bound = none ∧ t.env.trace = [] ∧
      t.env.device = s.env.device ∧ t.env.answers = s.env.answers ∧ t.env.pins = s.env.pins ∧
      t.results = s.results ∧ t.cfg = s.cfg) ∧
  (∀ cfg : Cfg, cfgOk cfg = true →
    (∀ x ∈ (State.construct cfg).rab.cells, x.sh = shadowReset cfg x.addr ∧ x.pm = 0 ∧ x.pv = 0) ∧
    (State.construct cfg).rab.cells.map (·.addr) = cfg.shadow.map (·.addr) ∧
    (State.construct cfg).rab.st = none ∧ (State.construct cfg).rab.en = .undriven)

/-- 44_register_access.md section 1 (rules R30, R125). The model's choices in it: what is presented stands in a list taken head first (log 16), and a frame on the wire is run as the instruction it spells (log 5). When `cmd_ready` is 1 and the input presented next decodes to an instruction, the step is that instruction's meaning with the input taken. -/
def Obligations.StepRunsPresentedInstruction : Prop :=
  ∀ (s : State) (x : Input) (i : Instr) (rest : List Input),
    cfgOk s.cfg = true → s.rst = false → s.waiting = false → s.inputs = x :: rest → x.instr? = some i →
    step s = exec i { s with inputs := rest }

/-- 10_state.md section 10 and 00_scope.md section 5 (rules R30, R4; logs 13 and 15): with `cmd_ready` at 1 and nothing presented the block idles; under a configuration that breaks a constraint of R4 the machine has no meaning. -/
def Obligations.StepIdlesOrRefusesConfiguration : Prop :=
  ∀ s : State,
    (cfgOk s.cfg = true → s.rst = false → s.waiting = false → s.inputs = [] → step s = .next s) ∧
    (cfgOk s.cfg = false → step s = .refused .badConfiguration)

/-- 00_scope.md section 5: a configuration is legal exactly when it meets R4's constraints, and no address stands twice in the list that holds `SHADOW_SET` (that clause is log 23, read from "a finite set"). -/
def Obligations.LegalConfigurationMeetsConstraints : Prop :=
  ∀ cfg : Cfg, cfgOk cfg = true ↔
    (1 ≤ cfg.statusBitDriverError ∧ cfg.statusBitDriverError ≤ 7) ∧
    (1 ≤ cfg.statusBitOtw ∧ cfg.statusBitOtw ≤ 7) ∧
    (1 ≤ cfg.statusBitStandstill ∧ cfg.statusBitStandstill ≤ 7) ∧
    cfg.statusBitDriverError ≠ cfg.statusBitOtw ∧ cfg.statusBitDriverError ≠ cfg.statusBitStandstill ∧
    cfg.statusBitOtw ≠ cfg.statusBitStandstill ∧
    (∀ r ∈ cfg.fields, 1 ≤ r.width ∧ r.lo + r.width ≤ 32) ∧ (cfg.shadow.map (·.addr)).Nodup

/-! ## Encoding -/

/-- 30_encoding.md sections 1, 2 and 4: every well-formed instruction, encoded, decodes to itself, as an input and as bytes. A frame's five bytes are the spec's; the fifteen bytes of a command are the model's own layout (log 10), since the spec gives a command signals and no bytes. -/
def Obligations.DecodeOfEncodeIsIdentity : Prop :=
  ∀ i : Instr, i.wf = true →
    (encode i).instr? = some i ∧
    ∃ bs : List Byte, encodeBytes (encode i) = some bs ∧ decodeBytes bs = .ok (encode i)

/-- 30_encoding.md sections 1 and 3 (rules R60, R65): every 40-bit frame is a datagram, and encoding it gives the frame back: `RD` when bit 39 is 0, `WR` when it is 1. -/
def Obligations.EveryFrameIsOneDatagram : Prop :=
  ∀ f : Frame, encode (decodeFrame f) = .frame f ∧
    (f.getLsbD 39 = false → decodeFrame f = .rd (f.extractLsb' 32 7) (f.extractLsb' 0 32)) ∧
    (f.getLsbD 39 = true → decodeFrame f = .wr (f.extractLsb' 32 7) (f.extractLsb' 0 32))

/-- R67 (decision D3): operands an operation does not read are ignored. -/
def Obligations.UnreadOperandsIgnored : Prop :=
  ∀ c d : Command, c.op = d.op →
    (c.op = 0x1 → c.dir = d.dir ∧ c.a = d.a ∧ c.wdata = d.wdata) →
    (c.op = 0x2 → c.fin = d.fin) →
    (c.op = 0x3 → c.wdata.extractLsb' 0 8 = d.wdata.extractLsb' 0 8) →
    (c.op = 0x4 ∨ c.op = 0x7 ∨ c.op = 0x9 → c.a = d.a) →
    (c.op = 0x5 → c.a = d.a ∧ c.wdata = d.wdata) →
    (c.op = 0x6 → c.a = d.a ∧ c.wmask = d.wmask ∧ c.wdata = d.wdata) →
    decodeCommand c = decodeCommand d

/-- 30_encoding.md sections 1 and 4, 95_test_vectors.md Part 1 (V1, V2) and Part 3 (P1 step 1, P2 steps 1 and 4, P4 step 5): words written out from the spec's encodings decode to what they stand for. The last clause goes through the model's own command word (log 10). -/
def Obligations.SpecWordsDecode : Prop :=
  decodeFrame 0x81DEADBEEF#40 = .wr 0x01 0xDEADBEEF ∧
  decodeFrame 0x0000000000#40 = .rd 0x00 0x00000000 ∧
  decodeFrame 0x6F00000000#40 = .rd 0x6F 0x00000000 ∧
  decodeCommand ⟨0x6, 0, 0x10, 0x0000000A, 0x0000001F, 0⟩ = .setf 0x10 0x0000001F 0x0000000A ∧
  decodeCommand ⟨0x5, 0, 0x01, 0x00000007, 0, 0⟩ = .wrreg 0x01 0x00000007 ∧
  decodeCommand ⟨0xF, 0, 0, 0, 0, 0⟩ = .reservedF ∧
  decodeTableWord 8 0x8 = some .getst

/-! ## Fields and pseudo-operations -/

/-- R69 (decision D21): the operands of a named setter: the mask covers bits lo to lo + width - 1, the value's bits land there and its bits at or above width are dropped. -/
def Obligations.SetterOperandsPlaceField : Prop :=
  ∀ (cfg : Cfg) (name : String) (val : Nat) (row : FieldRow), cfgOk cfg = true →
    fieldRow? cfg name = some row → row.access = .rw → shadowed cfg (row.addr.setWidth 8) = true →
    ∃ m b : Word, expandPseudo cfg (.setfld name val) =
        some (.operation (.setf (row.addr.setWidth 8) m b)) ∧
      (∀ i < 32, m.getLsbD i = decide (row.lo ≤ i ∧ i < row.lo + row.width)) ∧
      (∀ i < 32, b.getLsbD i = (m.getLsbD i && val.testBit (i - row.lo)))

/-- R70: a getter's value: bits lo to lo + width - 1 of the register value, as an unsigned integer of width bits; a one-bit field read as a Boolean is that bit. -/
def Obligations.GetterExtractsField : Prop :=
  ∀ (cfg : Cfg) (name : String) (v : Word) (row : FieldRow), cfgOk cfg = true →
    fieldRow? cfg name = some row →
    ∃ x : Word, expandPseudo cfg (.getfld name v) = some (.value x) ∧ x.toNat < 2 ^ row.width ∧
      (∀ i < row.width, x.getLsbD i = v.getLsbD (row.lo + i)) ∧
      (row.width = 1 → fieldFlag row.lo v = v.getLsbD row.lo)

/-- 42_shadow_store.md sections 1 and 3 with 30_encoding.md section 2: after a named setter the pending view has the field at the value modulo 2^width and every bit outside the field as before. -/
def Obligations.SetterThenViewShowsField : Prop :=
  ∀ (s : State) (name : String) (val : Nat) (row : FieldRow) (i : Instr) (x : ShadowCell),
    s.FileShape → fieldRow? s.cfg name = some row →
    expandPseudo s.cfg (.setfld name val) = some (.operation i) →
    x ∈ s.rab.cells → x.addr = row.addr →
    ∃ y ∈ (execOr i s).rab.cells, y.addr = row.addr ∧
      (fieldGet row.lo row.width y.merged).toNat = val % 2 ^ row.width ∧
      (∀ j < 32, ¬(row.lo ≤ j ∧ j < row.lo + row.width) →
        y.merged.getLsbD j = x.merged.getLsbD j)

/-- 30_encoding.md section 5 (rules R72, R135; decision D17): what the pseudo-operations expand to; a setter exists only for an `rw` field of a shadowed register, a flush only for a shadowed register, a getter only for a field. That `UPDATE` names its register by address and that no expansion stands for a rejection at compile time is the model's choice (log 22). A setter's operands are SetterOperandsPlaceField's, a getter's value GetterExtractsField's. `CONSTRUCT` is a pulse of `rst` (R32). -/
def Obligations.PseudoOperationsExpand : Prop :=
  ∀ cfg : Cfg,
    expandPseudo cfg .clrgstat =
      some (.operation (.wrreg (cfg.addrGstat.setWidth 8) cfg.gstatClearValue)) ∧
    expandPseudo cfg .rdgstat = some (.operation (.rdreg (cfg.addrGstat.setWidth 8))) ∧
    expandPseudo cfg .rddrvst = some (.operation (.rdreg (cfg.addrDrvStatus.setWidth 8))) ∧
    expandPseudo cfg .rdoffs = some (.operation (.rdreg (cfg.addrOffsetRead.setWidth 8))) ∧
    expandPseudo cfg .construct = some .reset ∧ Expansion.reset.inputs = [.rst true, .rst false] ∧
    (∀ k, expandPseudo cfg (.update k) =
      if shadowed cfg k then some (.operation (.upd k)) else none) ∧
    (∀ name val, expandPseudo cfg (.setfld name val) ≠ none ↔
      ∃ row, fieldRow? cfg name = some row ∧ row.access = .rw ∧
        shadowed cfg (row.addr.setWidth 8) = true) ∧
    (∀ name v, expandPseudo cfg (.getfld name v) ≠ none ↔ ∃ row, fieldRow? cfg name = some row)

/-! ## The reset port -/

/-- R25 (decision D14 for `PM`, `PV`, `ST`, `EN`): after reset under a legal configuration, for every member k of `SHADOW_SET` the cell of k, and no other cell, holds `SH[k] = SHADOW_RESET[k]`, `PM[k] = PV[k] = 0`; `ST` is none, `EN` undriven, and no exchange has been made. -/
def Obligations.ConstructionTakesResetValues : Prop :=
  ∀ cfg : Cfg, cfgOk cfg = true →
    (∀ k : Addr, shadowed cfg (k.setWidth 8) = true →
      (State.construct cfg).rab.cell? (k.setWidth 8) =
        some { addr := k, sh := shadowReset cfg k, pm := 0, pv := 0 }) ∧
    (∀ e ∈ cfg.shadow, shadowReset cfg e.addr = e.reset) ∧
    (∀ k : Byte, shadowed cfg k = false → (State.construct cfg).rab.cell? k = none) ∧
    (State.construct cfg).rab.st = none ∧ (State.construct cfg).rab.en = .undriven ∧
    (State.construct cfg).env.trace = []

/-- 10_state.md section 10 (rule R32, decisions D2, D14; that the level stands in the state and what a step does under it is the model's, log 12): while `rst` is 1, `cmd_ready` is 0 and `x_start` is 0, and a step takes no operation and returns nothing: it leaves the block at its reset values, `rst` still 1 unless a 0 is presented, which releases it. That the values are held while `rst` is 1 is an invariant of every step. -/
def Obligations.RstHoldsResetValues : Prop :=
  (∀ s : State, cfgOk s.cfg = true → s.rst = true →
    s.cmdReady = false ∧ s.xStart = false ∧
    ∃ t : State, step s = .next t ∧ t.rab = Rab.construct s.cfg ∧ t.waiting = false ∧
      t.results = s.results ∧ t.env.device = s.env.device ∧ t.env.trace = [] ∧
      ((∀ x ∈ s.inputs, ∀ level, x ≠ .rst level) → t.rst = true ∧ t.inputs = s.inputs) ∧
      (∀ rest, s.inputs = .rst false :: rest → t.rst = false ∧ t.cmdReady = true ∧ t.inputs = rest)) ∧
  ∀ s t : State, s.RstInv → step s = .next t → t.RstInv
end

