-- ==== Sys2Proof/Laws/Memory.lean ====
section
/-! SUPPORT. The reference device's registers: a read after a write, and that every operation keeps the canonical form. -/

namespace Sys2Proof.Machine

@[simp] theorem Memory.read_nil (a : Nat) : Memory.read [] a = 0 := rfl

theorem Memory.read_cons (k : Nat) (w : Word) (m : Memory) (a : Nat) :
    Memory.read ((k, w) :: m) a = if k = a then w else Memory.read m a := rfl

/-- An address below every entry reads 0. -/
theorem Memory.read_below {m : Memory} {lo a : Nat} (h : m.wfFrom lo = true) (ha : a < lo) :
    m.read a = 0 := by
  induction m generalizing lo with
  | nil => rfl
  | cons e m ih =>
    obtain ⟨k, w⟩ := e
    simp only [Memory.wfFrom, Bool.and_eq_true, decide_eq_true_eq] at h
    rw [Memory.read_cons, if_neg (by omega)]
    exact ih h.2 (by omega)

theorem Memory.wfFrom_mono {m : Memory} {lo lo' : Nat} (h : m.wfFrom lo = true) (hl : lo' ≤ lo) :
    m.wfFrom lo' = true := by
  cases m with
  | nil => rfl
  | cons e m =>
    obtain ⟨k, w⟩ := e
    simp only [Memory.wfFrom, Bool.and_eq_true, decide_eq_true_eq] at h ⊢
    exact ⟨⟨⟨by omega, h.1.1.2⟩, h.1.2⟩, h.2⟩

theorem Memory.write_wfFrom {m : Memory} {lo a : Nat} {w : Word}
    (h : m.wfFrom lo = true) (hl : lo ≤ a) (ha : a < 128) : (m.write a w).wfFrom lo = true := by
  induction m generalizing lo with
  | nil =>
    simp only [Memory.write]
    split
    · rfl
    · next hw => simpa [Memory.wfFrom, hl, ha] using hw
  | cons e m ih =>
    obtain ⟨k, x⟩ := e
    have hc := h
    simp only [Memory.wfFrom, Bool.and_eq_true, decide_eq_true_eq] at h
    simp only [Memory.write]
    split
    · next hlt =>
      split
      · exact hc
      · next hw =>
        simp only [Memory.wfFrom, Bool.and_eq_true, decide_eq_true_eq]
        exact ⟨⟨⟨hl, ha⟩, by simpa using hw⟩, ⟨⟨by omega, h.1.1.2⟩, h.1.2⟩, h.2⟩
    · split
      · next heq =>
        subst heq
        split
        · exact Memory.wfFrom_mono h.2 (by omega)
        · next hw =>
          simp only [Memory.wfFrom, Bool.and_eq_true, decide_eq_true_eq]
          exact ⟨⟨⟨hl, ha⟩, by simpa using hw⟩, h.2⟩
      · simp only [Memory.wfFrom, Bool.and_eq_true, decide_eq_true_eq]
        exact ⟨⟨⟨h.1.1.1, h.1.1.2⟩, h.1.2⟩, ih h.2 (by omega)⟩

/-- A write to a register keeps the canonical form. -/
theorem Memory.write_wf {m : Memory} {a : Nat} {w : Word} (h : m.wf = true) (ha : a < 128) :
    (m.write a w).wf = true := Memory.write_wfFrom h (Nat.zero_le a) ha

theorem Memory.fill_wf (f : Addr → Word) (n : Nat) (hn : n ≤ 128) : (Memory.fill f n).wf = true := by
  induction n with
  | zero => rfl
  | succ n ih => exact Memory.write_wf (ih (by omega)) (by omega)

theorem Memory.ofShadow_wf (es : List ShadowEntry) : (Memory.ofShadow es).wf = true := by
  induction es with
  | nil => rfl
  | cons e es ih => exact Memory.write_wf ih e.addr.isLt

theorem Memory.read_write_from {m : Memory} {lo a : Nat} {w : Word} (h : m.wfFrom lo = true) (b : Nat) :
    (m.write a w).read b = if b = a then w else m.read b := by
  induction m generalizing lo with
  | nil =>
    simp only [Memory.write]
    by_cases hw : w = 0
    · subst hw; simp
    · rw [if_neg hw, Memory.read_cons]
      by_cases hb : a = b
      · rw [if_pos hb, if_pos hb.symm]
      · rw [if_neg hb, if_neg (fun h => hb h.symm)]
  | cons e m ih =>
    obtain ⟨k, x⟩ := e
    simp only [Memory.wfFrom, Bool.and_eq_true, decide_eq_true_eq] at h
    have hbelow : ∀ {c : Nat}, c < k + 1 → Memory.read m c = 0 := fun hc => Memory.read_below h.2 hc
    simp only [Memory.write]
    split
    · next hlt =>
      by_cases hb : b = a
      · subst hb
        have h0 : Memory.read ((k, x) :: m) b = 0 := by
          rw [Memory.read_cons, if_neg (by omega), hbelow (by omega)]
        by_cases hw : w = 0 <;> simp_all [Memory.read_cons]
      · by_cases hw : w = 0
        · simp [hw, hb]
        · rw [if_neg hw, Memory.read_cons, if_neg (fun h => hb h.symm), if_neg hb]
    · split
      · next heq =>
        subst heq
        by_cases hb : b = a
        · subst hb
          by_cases hw : w = 0 <;> simp_all [Memory.read_cons]
        · have hb' : ¬ a = b := fun h => hb h.symm
          by_cases hw : w = 0
          · rw [if_pos hw, if_neg hb, Memory.read_cons, if_neg hb']
          · rw [if_neg hw, if_neg hb, Memory.read_cons, Memory.read_cons, if_neg hb', if_neg hb']
      · rw [Memory.read_cons, Memory.read_cons, ih h.2]
        by_cases hk : k = b
        · subst hk
          rw [if_pos rfl, if_pos rfl, if_neg (by omega)]
        · rw [if_neg hk, if_neg hk]

/-- A read after a write to a canonical memory: the value written at its register, every other register as it was. -/
theorem Memory.read_write {m : Memory} {a : Nat} {w : Word} (h : m.wf = true) (b : Nat) :
    (m.write a w).read b = if b = a then w else m.read b := Memory.read_write_from h b

/-- The reference device keeps the canonical form whatever datagram it takes. -/
theorem RefDev.take_wf (i : Instr) {d : RefDev} (h : d.dev.wf = true) : (d.take i).dev.wf = true := by
  cases i with
  | wr a v => exact Memory.write_wf h a.isLt
  | _ => exact h

theorem RefDev.free_wf (n : Nat) : (RefDev.free n).dev.wf = true := by
  have h : ∀ k, k ≤ 128 → (Memory.fill (Config.freeDevWord n) k).wf = true :=
    fun k hk => Memory.fill_wf _ k hk
  have he : (RefDev.free n).dev = Memory.fill (Config.freeDevWord n) 128 := by
    simp only [RefDev.free]
  rw [he]
  exact h _ (by omega)

theorem RefDev.initial_wf (cfg : Cfg) : (RefDev.initial cfg).dev.wf = true := Memory.ofShadow_wf _

/-- Equal contents are equal data: two canonical memories that read alike are the same list. -/
theorem Memory.eq_of_read {lo : Nat} {m n : Memory} (hm : m.wfFrom lo = true) (hn : n.wfFrom lo = true)
    (h : ∀ a, m.read a = n.read a) : m = n := by
  induction m generalizing n lo with
  | nil =>
    cases n with
    | nil => rfl
    | cons e n =>
      obtain ⟨k, w⟩ := e
      have := h k
      simp_all [Memory.read_cons, Memory.wfFrom]
  | cons e m ih =>
    obtain ⟨k, x⟩ := e
    cases n with
    | nil =>
      have := h k
      simp_all [Memory.read_cons, Memory.wfFrom]
    | cons e' n =>
      obtain ⟨k', x'⟩ := e'
      simp only [Memory.wfFrom, Bool.and_eq_true, decide_eq_true_eq, bne_iff_ne, ne_eq] at hm hn
      have hk : k = k' := by
        rcases Nat.lt_trichotomy k k' with hlt | heq | hlt
        · have := h k
          rw [Memory.read_cons, if_pos rfl, Memory.read_cons, if_neg (by omega),
            Memory.read_below hn.2 (by omega)] at this
          exact absurd this hm.1.2
        · exact heq
        · have := h k'
          rw [Memory.read_cons, if_neg (by omega), Memory.read_below hm.2 (by omega),
            Memory.read_cons, if_pos rfl] at this
          exact absurd this.symm hn.1.2
      subst hk
      have hx : x = x' := by simpa [Memory.read_cons] using h k
      subst hx
      refine congrArg _ (ih hm.2 hn.2 fun a => ?_)
      have := h a
      by_cases ha : k = a
      · subst ha
        rw [Memory.read_below hm.2 (by omega), Memory.read_below hn.2 (by omega)]
      · simpa [Memory.read_cons, ha] using this

end Sys2Proof.Machine
end

