-- ==== Sys2Proof/Laws/State.lean ====
section
/-! SUPPORT. What each update of the state does to each field, one lemma per field, so that no later proof unfolds a record update. -/

namespace Sys2Proof.Machine

@[simp] theorem State.respond_cfg (r : Result) (s : State) : (s.respond r).cfg = s.cfg := rfl

@[simp] theorem State.respond_rab (r : Result) (s : State) : (s.respond r).rab = s.rab := rfl

@[simp] theorem State.respond_env (r : Result) (s : State) : (s.respond r).env = s.env := rfl

@[simp] theorem State.respond_inputs (r : Result) (s : State) : (s.respond r).inputs = s.inputs := rfl

@[simp] theorem State.respond_rst (r : Result) (s : State) : (s.respond r).rst = s.rst := rfl

@[simp] theorem State.respond_waiting (r : Result) (s : State) : (s.respond r).waiting = s.waiting := rfl

@[simp] theorem State.respond_results (r : Result) (s : State) : (s.respond r).results = r :: s.results := rfl

@[simp] theorem State.raise_cfg (k : Kind) (s : State) : (s.raise k).cfg = s.cfg := rfl

@[simp] theorem State.raise_rab (k : Kind) (s : State) : (s.raise k).rab = s.rab := rfl

@[simp] theorem State.raise_env (k : Kind) (s : State) : (s.raise k).env = s.env := rfl

@[simp] theorem State.raise_inputs (k : Kind) (s : State) : (s.raise k).inputs = s.inputs := rfl

@[simp] theorem State.raise_rst (k : Kind) (s : State) : (s.raise k).rst = s.rst := rfl

@[simp] theorem State.raise_waiting (k : Kind) (s : State) : (s.raise k).waiting = s.waiting := rfl

@[simp] theorem State.raise_results (k : Kind) (s : State) : (s.raise k).results = ({ kind := k } : Result) :: s.results := rfl

@[simp] theorem State.hang_cfg (s : State) : s.hang.cfg = s.cfg := rfl

@[simp] theorem State.hang_rab (s : State) : s.hang.rab = s.rab := rfl

@[simp] theorem State.hang_env (s : State) : s.hang.env = s.env := rfl

@[simp] theorem State.hang_inputs (s : State) : s.hang.inputs = s.inputs := rfl

@[simp] theorem State.hang_rst (s : State) : s.hang.rst = s.rst := rfl

@[simp] theorem State.hang_waiting (s : State) : s.hang.waiting = true := rfl

@[simp] theorem State.hang_results (s : State) : s.hang.results = s.results := rfl

@[simp] theorem State.exchange_cfg (c : Frame) (s : State) : (s.exchange c).cfg = s.cfg := rfl

@[simp] theorem State.exchange_rab (c : Frame) (s : State) : (s.exchange c).rab = { s.rab with st := latchStatus s.env.reply s.rab.st } := rfl

@[simp] theorem State.exchange_env (c : Frame) (s : State) : (s.exchange c).env = s.env.exchange c := rfl

@[simp] theorem State.exchange_inputs (c : Frame) (s : State) : (s.exchange c).inputs = s.inputs := rfl

@[simp] theorem State.exchange_rst (c : Frame) (s : State) : (s.exchange c).rst = s.rst := rfl

@[simp] theorem State.exchange_waiting (c : Frame) (s : State) : (s.exchange c).waiting = s.waiting := rfl

@[simp] theorem State.exchange_results (c : Frame) (s : State) : (s.exchange c).results = s.results := rfl

@[simp] theorem State.updateCell_cfg (k : Byte) (f : ShadowCell → ShadowCell) (s : State) : (s.updateCell k f).cfg = s.cfg := rfl

@[simp] theorem State.updateCell_rab (k : Byte) (f : ShadowCell → ShadowCell) (s : State) : (s.updateCell k f).rab = s.rab.updateCell k f := rfl

@[simp] theorem State.updateCell_env (k : Byte) (f : ShadowCell → ShadowCell) (s : State) : (s.updateCell k f).env = s.env := rfl

@[simp] theorem State.updateCell_inputs (k : Byte) (f : ShadowCell → ShadowCell) (s : State) : (s.updateCell k f).inputs = s.inputs := rfl

@[simp] theorem State.updateCell_rst (k : Byte) (f : ShadowCell → ShadowCell) (s : State) : (s.updateCell k f).rst = s.rst := rfl

@[simp] theorem State.updateCell_waiting (k : Byte) (f : ShadowCell → ShadowCell) (s : State) : (s.updateCell k f).waiting = s.waiting := rfl

@[simp] theorem State.updateCell_results (k : Byte) (f : ShadowCell → ShadowCell) (s : State) : (s.updateCell k f).results = s.results := rfl

@[simp] theorem State.resetBlock_cfg (s : State) : s.resetBlock.cfg = s.cfg := rfl

@[simp] theorem State.resetBlock_rab (s : State) : s.resetBlock.rab = Rab.construct s.cfg := rfl

@[simp] theorem State.resetBlock_env (s : State) : s.resetBlock.env = { s.env with bound := none, trace := [] } := rfl

@[simp] theorem State.resetBlock_inputs (s : State) : s.resetBlock.inputs = s.inputs := rfl

@[simp] theorem State.resetBlock_rst (s : State) : s.resetBlock.rst = s.rst := rfl

@[simp] theorem State.resetBlock_waiting (s : State) : s.resetBlock.waiting = false := rfl

@[simp] theorem State.resetBlock_results (s : State) : s.resetBlock.results = s.results := rfl

@[simp] theorem Env.take_device (i : Instr) (f : Frame) (e : Env) : (e.take i f).device = e.device.map (RefDev.take i) := rfl

@[simp] theorem Env.take_bound (i : Instr) (f : Frame) (e : Env) : (e.take i f).bound = some f := rfl

@[simp] theorem Env.take_answers (i : Instr) (f : Frame) (e : Env) : (e.take i f).answers = e.answers := rfl

@[simp] theorem Env.take_pins (i : Instr) (f : Frame) (e : Env) : (e.take i f).pins = e.pins := rfl

@[simp] theorem Env.take_drawn (i : Instr) (f : Frame) (e : Env) : (e.take i f).drawn = e.drawn := rfl

@[simp] theorem Env.take_trace (i : Instr) (f : Frame) (e : Env) : (e.take i f).trace = e.trace := rfl

@[simp] theorem Env.forget_device (e : Env) : e.forget.device = e.device.map (fun _ => RefDev.free e.drawn) := rfl

@[simp] theorem Env.forget_bound (e : Env) : e.forget.bound = none := rfl

@[simp] theorem Env.forget_answers (e : Env) : e.forget.answers = e.answers := rfl

@[simp] theorem Env.forget_pins (e : Env) : e.forget.pins = e.pins := rfl

@[simp] theorem Env.forget_drawn (e : Env) : e.forget.drawn = e.drawn := rfl

@[simp] theorem Env.forget_trace (e : Env) : e.forget.trace = e.trace := rfl

@[simp] theorem Env.pinWrite_device (e : Env) : e.pinWrite.device = e.device := rfl

@[simp] theorem Env.pinWrite_bound (e : Env) : e.pinWrite.bound = e.bound := rfl

@[simp] theorem Env.pinWrite_answers (e : Env) : e.pinWrite.answers = e.answers := rfl

@[simp] theorem Env.pinWrite_pins (e : Env) : e.pinWrite.pins = e.pins.tail := rfl

@[simp] theorem Env.pinWrite_drawn (e : Env) : e.pinWrite.drawn = e.drawn + 1 := rfl

@[simp] theorem Env.pinWrite_trace (e : Env) : e.pinWrite.trace = e.trace := rfl

@[simp] theorem Env.exchange_answers (c : Frame) (e : Env) : (e.exchange c).answers = e.answers.tail := rfl

@[simp] theorem Env.exchange_drawn (c : Frame) (e : Env) : (e.exchange c).drawn = e.drawn + 1 := rfl

@[simp] theorem Env.exchange_trace (c : Frame) (e : Env) : (e.exchange c).trace = { sent := c, answer := e.reply, owner := e.bound } :: e.trace := rfl

@[simp] theorem Rab.updateCell_st (r : Rab) (k : Byte) (f : ShadowCell → ShadowCell) : (r.updateCell k f).st = r.st := rfl

@[simp] theorem Rab.updateCell_en (r : Rab) (k : Byte) (f : ShadowCell → ShadowCell) : (r.updateCell k f).en = r.en := rfl

@[simp] theorem ShadowCell.patch_addr (m b : Word) (c : ShadowCell) : (c.patch m b).addr = c.addr := rfl

@[simp] theorem ShadowCell.patch_sh (m b : Word) (c : ShadowCell) : (c.patch m b).sh = c.sh := rfl

@[simp] theorem ShadowCell.patch_pm (m b : Word) (c : ShadowCell) : (c.patch m b).pm = c.pm ||| m := rfl

@[simp] theorem ShadowCell.patch_pv (m b : Word) (c : ShadowCell) : (c.patch m b).pv = (c.pv &&& ~~~m) ||| (b &&& m) := rfl

@[simp] theorem ShadowCell.commit_addr (w : Word) (c : ShadowCell) : (c.commit w).addr = c.addr := rfl

@[simp] theorem ShadowCell.commit_sh (w : Word) (c : ShadowCell) : (c.commit w).sh = w := rfl

@[simp] theorem ShadowCell.commit_pm (w : Word) (c : ShadowCell) : (c.commit w).pm = 0 := rfl

@[simp] theorem ShadowCell.commit_pv (w : Word) (c : ShadowCell) : (c.commit w).pv = 0 := rfl

@[simp] theorem ShadowCell.overwrite_addr (w : Word) (c : ShadowCell) : (c.overwrite w).addr = c.addr := rfl

@[simp] theorem ShadowCell.overwrite_sh (w : Word) (c : ShadowCell) : (c.overwrite w).sh = w := rfl

@[simp] theorem ShadowCell.overwrite_pm (w : Word) (c : ShadowCell) : (c.overwrite w).pm = c.pm := rfl

@[simp] theorem ShadowCell.overwrite_pv (w : Word) (c : ShadowCell) : (c.overwrite w).pv = c.pv := rfl

@[simp] theorem State.driveRst_cfg (level : Bool) (s : State) : (s.driveRst level).cfg = s.cfg := by
  unfold State.driveRst; split <;> rfl

@[simp] theorem State.driveRst_inputs (level : Bool) (s : State) : (s.driveRst level).inputs = s.inputs := by
  unfold State.driveRst; split <;> rfl

@[simp] theorem State.driveRst_results (level : Bool) (s : State) : (s.driveRst level).results = s.results := by
  unfold State.driveRst; split <;> rfl

@[simp] theorem State.driveRst_rst (level : Bool) (s : State) : (s.driveRst level).rst = level := by
  unfold State.driveRst; cases level <;> cases h : s.rst <;> simp [h]

@[simp] theorem State.driveRst_device (level : Bool) (s : State) :
    (s.driveRst level).env.device = s.env.device := by
  unfold State.driveRst; split <;> rfl

/-- A 1 on the reset port, and the release of one, set the block's state to its reset values. -/
theorem State.driveRst_reset {level : Bool} {s : State} (h : (level || s.rst) = true) :
    s.driveRst level = { s.resetBlock with rst := level } := if_pos h

/-- A 0 on a port that is 0 already changes nothing. -/
theorem State.driveRst_idle {s : State} (h : s.rst = false) : s.driveRst false = s := by
  unfold State.driveRst; rw [if_neg (by simp [h])]

theorem State.cmdReady_iff (s : State) : s.cmdReady = true ↔ s.rst = false ∧ s.waiting = false := by
  simp [State.cmdReady]

@[simp] theorem nextRst_rst (level : Bool) (rest : List Input) :
    nextRst (.rst level :: rest) = some (level, rest) := rfl

/-- No level of `rst` is presented exactly when none stands in the inputs. -/
theorem nextRst_none_iff : ∀ xs : List Input, nextRst xs = none ↔ ∀ x ∈ xs, ∀ level, x ≠ .rst level
  | [] => by simp [nextRst]
  | .rst level :: rest => by simp [nextRst]
  | .command c :: rest => by simp [nextRst, nextRst_none_iff rest]
  | .frame f :: rest => by simp [nextRst, nextRst_none_iff rest]

@[simp] theorem Env.exchange_pins (c : Frame) (e : Env) : (e.exchange c).pins = e.pins := by
  unfold Env.exchange; cases e.reply <;> rfl

end Sys2Proof.Machine
end

