-- ==== Sys2Proof/Laws/Ops.lean ====
section
/-! SUPPORT. One lemma per shared operation that says all it can do: the environment's reply, the exchange, the wrapper `Xchg`, driving the enable line; and the assembly of frames. -/

namespace Sys2Proof.Machine

/-! ## The environment's reply and the exchange -/

theorem Env.reply_oracle {e : Env} (h : e.device = none) : e.reply = e.draw := by
  simp only [Env.reply, h]; cases e.draw <;> rfl

theorem Env.reply_device {e : Env} {d : RefDev} {r : Frame} (h : e.device = some d) (hr : e.draw = .ok r) :
    e.reply = .ok (joinFrame (frameStatus r) d.latch) := by
  simp only [Env.reply, h, hr]

theorem Env.draw_cons {e : Env} {a : Answer} {rest : List Answer} (h : e.answers = a :: rest) :
    e.draw = a := by simp only [Env.draw, h]

/-- After a response the device has taken the datagram and the next response belongs to it. -/
theorem Env.exchange_ok {c r : Frame} {e : Env} (h : e.reply = .ok r) :
    (e.exchange c).device = e.device.map (RefDev.take (decodeFrame c)) ∧ (e.exchange c).bound = some c := by
  simp only [Env.exchange, h]; exact ⟨rfl, rfl⟩

/-- Without a response nothing is known of the device. -/
theorem Env.exchange_failed {c : Frame} {e : Env} (h : ∀ r, e.reply ≠ .ok r) :
    (e.exchange c).device = e.device.map (fun _ => RefDev.free e.drawn) ∧ (e.exchange c).bound = none := by
  unfold Env.exchange
  cases hr : e.reply with
  | ok r => exact absurd hr (h r)
  | fault => exact ⟨rfl, rfl⟩
  | silence => exact ⟨rfl, rfl⟩

/-- An exchange keeps the reference device's registers canonical. -/
theorem Env.exchange_device_wf {c : Frame} {e : Env} (h : ∀ d, e.device = some d → d.dev.wf = true) :
    ∀ d, (e.exchange c).device = some d → d.dev.wf = true := by
  intro d hd
  by_cases hr : ∃ r, e.reply = .ok r
  · obtain ⟨r, hr⟩ := hr
    rw [(Env.exchange_ok hr).1, Option.map_eq_some_iff] at hd
    obtain ⟨d0, h0, rfl⟩ := hd
    exact RefDev.take_wf _ (h d0 h0)
  · rw [(Env.exchange_failed (fun r hr' => hr ⟨r, hr'⟩)).1, Option.map_eq_some_iff] at hd
    obtain ⟨_, _, rfl⟩ := hd
    exact RefDev.free_wf _

/-! ## `Xchg` -/

theorem State.xchg_ok {c r : Frame} {s : State} (go : Frame → State → State) (h : s.env.reply = .ok r) :
    s.xchg c go = go r (s.exchange c) := by simp only [State.xchg, h]

theorem State.xchg_fault {c : Frame} {s : State} (go : Frame → State → State) (h : s.env.reply = .fault) :
    s.xchg c go = (s.exchange c).raise .busError := by simp only [State.xchg, h]

theorem State.xchg_silence {c : Frame} {s : State} (go : Frame → State → State) (h : s.env.reply = .silence) :
    s.xchg c go = (s.exchange c).hang := by simp only [State.xchg, h]

/-- What `Xchg` can do: go on with a response, raise `BusError`, or leave the operation waiting. -/
theorem State.xchg_cases (c : Frame) (s : State) (go : Frame → State → State) :
    (∃ r, s.env.reply = .ok r ∧ s.xchg c go = go r (s.exchange c)) ∨
    (s.env.reply = .fault ∧ s.xchg c go = (s.exchange c).raise .busError) ∨
    (s.env.reply = .silence ∧ s.xchg c go = (s.exchange c).hang) := by
  cases h : s.env.reply with
  | ok r => exact .inl ⟨r, rfl, State.xchg_ok go h⟩
  | fault => exact .inr (.inl ⟨rfl, State.xchg_fault go h⟩)
  | silence => exact .inr (.inr ⟨rfl, State.xchg_silence go h⟩)

@[simp] theorem latchStatus_ok (r : Frame) (st : Option Byte) :
    latchStatus (.ok r) st = some (frameStatus r) := rfl

@[simp] theorem latchStatus_fault (st : Option Byte) : latchStatus .fault st = st := rfl

@[simp] theorem latchStatus_silence (st : Option Byte) : latchStatus .silence st = st := rfl

/-- An exchange without a response changes nothing of the block. -/
theorem State.exchange_failed {c : Frame} {s : State} (h : ∀ r, s.env.reply ≠ .ok r) :
    s.exchange c = { s with env := s.env.exchange c } := by
  unfold State.exchange
  cases hr : s.env.reply with
  | ok r => exact absurd hr (h r)
  | fault => rfl
  | silence => rfl

/-! ## The enable line -/

/-- What `ENABLE` and `DISABLE` can do. -/
theorem State.drivePin_cases (on : Bool) (s : State) :
    (s.cfg.hasEnable = true ∧ s.env.pinDraw = .ok ∧
      s.drivePin on = State.respond { kind := .ok }
        { s with rab := { s.rab with en := enableLevel s.cfg on }, env := s.env.pinWrite }) ∨
    (s.cfg.hasEnable = true ∧ s.env.pinDraw = .fault ∧
      s.drivePin on = State.raise .pinError { s with env := s.env.pinWrite }) ∨
    (s.cfg.hasEnable = false ∧ s.drivePin on = s.raise .refused) := by
  unfold State.drivePin
  cases hh : s.cfg.hasEnable with
  | false => exact .inr (.inr ⟨rfl, rfl⟩)
  | true =>
    cases hp : s.env.pinDraw with
    | ok => exact .inl ⟨rfl, rfl, rfl⟩
    | fault => exact .inr (.inl ⟨rfl, rfl, rfl⟩)

/-! ## Frames -/

/-- The five bytes determine the frame. -/
theorem frameBytes_injective {f g : Frame} (h : frameBytes f = frameBytes g) : f = g := by
  simp only [frameBytes, List.cons.injEq, and_true] at h
  obtain ⟨h0, h1, h2, h3, h4⟩ := h
  apply BitVec.eq_of_getLsbD_eq
  intro i hi
  have e0 := congrArg (fun x => BitVec.getLsbD x (i - 32)) h0
  have e1 := congrArg (fun x => BitVec.getLsbD x (i - 24)) h1
  have e2 := congrArg (fun x => BitVec.getLsbD x (i - 16)) h2
  have e3 := congrArg (fun x => BitVec.getLsbD x (i - 8)) h3
  have e4 := congrArg (fun x => BitVec.getLsbD x (i - 0)) h4
  simp only [BitVec.getLsbD_extractLsb'] at e0 e1 e2 e3 e4
  rcases (by omega : i < 8 ∨ (8 ≤ i ∧ i < 16) ∨ (16 ≤ i ∧ i < 24) ∨ (24 ≤ i ∧ i < 32) ∨ (32 ≤ i ∧ i < 40))
    with h | h | h | h | h
  · simpa [(by omega : i - 0 < 8)] using e4
  · simpa [(by omega : i - 8 < 8), (by omega : 8 + (i - 8) = i)] using e3
  · simpa [(by omega : i - 16 < 8), (by omega : 16 + (i - 16) = i)] using e2
  · simpa [(by omega : i - 24 < 8), (by omega : 24 + (i - 24) = i)] using e1
  · simpa [(by omega : i - 32 < 8), (by omega : 32 + (i - 32) = i)] using e0

@[simp] theorem frameStatus_joinFrame (b : Byte) (v : Word) : frameStatus (joinFrame b v) = b := by
  apply BitVec.eq_of_getLsbD_eq
  intro i hi
  simp only [frameStatus, joinFrame, BitVec.getLsbD_extractLsb', BitVec.getLsbD_append]
  simp [hi]

@[simp] theorem frameData_joinFrame (b : Byte) (v : Word) : frameData (joinFrame b v) = v := by
  apply BitVec.eq_of_getLsbD_eq
  intro i hi
  simp only [frameData, joinFrame, BitVec.getLsbD_extractLsb', BitVec.getLsbD_append]
  simp [hi]

/-- The bytes of a frame: the first, then the value's, big-endian. -/
theorem frameBytes_joinFrame (b : Byte) (v : Word) :
    frameBytes (joinFrame b v) =
      [b, v.extractLsb' 24 8, v.extractLsb' 16 8, v.extractLsb' 8 8, v.extractLsb' 0 8] := by
  have key : ∀ n, n + 8 ≤ 32 → (joinFrame b v).extractLsb' n 8 = v.extractLsb' n 8 := by
    intro n hn
    apply BitVec.eq_of_getLsbD_eq
    intro i hi
    simp only [joinFrame, BitVec.getLsbD_extractLsb', BitVec.getLsbD_append]
    simp [(by omega : n + i < 32)]
  simp only [frameBytes, key 24 (by omega), key 16 (by omega), key 8 (by omega), key 0 (by omega)]
  exact congrArg (· :: _) (frameStatus_joinFrame b v)

/-- A frame is its first byte and its value. -/
theorem joinFrame_parts (f : Frame) : joinFrame (frameStatus f) (frameData f) = f := by
  apply BitVec.eq_of_getLsbD_eq
  intro i hi
  simp only [frameStatus, frameData, joinFrame, BitVec.getLsbD_append, BitVec.getLsbD_extractLsb']
  by_cases h : i < 32
  · simp [h]
  · simp [h, (by omega : i - 32 < 8), (by omega : 32 + (i - 32) = i)]

@[simp] theorem frameData_packFrame (w : Bit) (a : Byte) (v : Word) : frameData (packFrame w a v) = v :=
  frameData_joinFrame _ v

@[simp] theorem frameStatus_packFrame (w : Bit) (a : Byte) (v : Word) :
    frameStatus (packFrame w a v) = (w.setWidth 8 <<< 7) ||| maskAddr a := frameStatus_joinFrame _ v

/-- The direction bit is bit 7 of byte 0. -/
theorem frameDir_joinFrame (b : Byte) (v : Word) : frameDir (joinFrame b v) = b.extractLsb' 7 1 := by
  apply BitVec.eq_of_getLsbD_eq
  intro i hi
  simp only [frameDir, joinFrame, BitVec.getLsbD_extractLsb', BitVec.getLsbD_append]
  rw [if_neg (by omega), (by omega : 39 + i - 32 = 7 + i)]

/-- The address is bits 6:0 of byte 0. -/
theorem frameAddr_joinFrame (b : Byte) (v : Word) : frameAddr (joinFrame b v) = b.extractLsb' 0 7 := by
  apply BitVec.eq_of_getLsbD_eq
  intro i hi
  simp only [frameAddr, joinFrame, BitVec.getLsbD_extractLsb', BitVec.getLsbD_append]
  simp

@[simp] theorem frameDir_packFrame (w : Bit) (a : Byte) (v : Word) : frameDir (packFrame w a v) = w := by
  rw [packFrame, frameDir_joinFrame]
  revert w a; decide

@[simp] theorem frameAddr_packFrame (w : Bit) (a : Byte) (v : Word) :
    frameAddr (packFrame w a v) = a.setWidth 7 := by
  rw [packFrame, frameAddr_joinFrame]
  revert w a; decide

/-- The frame the block builds for a write is the datagram `WR`. -/
theorem decodeFrame_write (a : Byte) (v : Word) :
    decodeFrame (packFrame 1#1 a v) = .wr (a.setWidth 7) v := by
  simp [decodeFrame]

/-- The frame the block builds for a read is the datagram `RD`. -/
theorem decodeFrame_read (a : Byte) (v : Word) :
    decodeFrame (packFrame 0#1 a v) = .rd (a.setWidth 7) v := by
  simp [decodeFrame]

/-- A frame given by its bytes is the one the block assembles. -/
theorem packFrame_of_bytes {c : Frame} {w : Bit} {a b : Byte} {v : Word}
    (hb : (w.setWidth 8 <<< 7) ||| maskAddr a = b)
    (h : frameBytes c = [b, v.extractLsb' 24 8, v.extractLsb' 16 8, v.extractLsb' 8 8, v.extractLsb' 0 8]) :
    c = packFrame w a v :=
  frameBytes_injective (by rw [h, packFrame, frameBytes_joinFrame, hb])

/-- Byte 0 of a read's frame. -/
theorem read_byte0 (a : Byte) : ((0#1).setWidth 8 <<< 7) ||| maskAddr a = a &&& 0x7F#8 := by
  revert a; decide

/-- Byte 0 of a write's frame. -/
theorem write_byte0 (a : Byte) : ((1#1).setWidth 8 <<< 7) ||| maskAddr a = 0x80#8 ||| (a &&& 0x7F#8) := by
  revert a; decide

/-- A masked address names a register exactly when its low 7 bits do (R37). -/
theorem eq_maskAddr_iff (a : Byte) (c : Addr) : c.setWidth 8 = maskAddr a ↔ a.setWidth 7 = c := by
  have h : maskAddr a = (a.setWidth 7).setWidth 8 := by revert a; decide
  rw [h]
  constructor
  · intro hc
    have := congrArg (BitVec.setWidth 7) hc
    simpa using this.symm
  · rintro rfl; rfl

/-! ## Bytes of a number -/

theorem length_bytesOfNat : ∀ n w : Nat, (bytesOfNat n w).length = n
  | 0, _ => rfl
  | n + 1, w => by rw [bytesOfNat, List.length_cons, length_bytesOfNat n]

/-- The first n bytes of a number give it back modulo 256^n. -/
theorem natOfBytes_bytesOfNat : ∀ n w : Nat, natOfBytes (bytesOfNat n w) = w % 256 ^ n
  | 0, w => by simp [bytesOfNat, natOfBytes, Nat.mod_one]
  | n + 1, w => by
    rw [bytesOfNat, natOfBytes, natOfBytes_bytesOfNat n, BitVec.toNat_ofNat]
    show w % 256 + _ = _
    rw [Nat.pow_succ', Nat.mod_mul]

end Sys2Proof.Machine
end

