-- ==== Sys2Proof/Laws/Fields.lean ====
section
/-! SUPPORT. The bits of a field's mask, of its new value and of its extracted value (R69, R70), and what one more exchange does to the record of writes (R16). -/

namespace Sys2Proof.Machine

/-- A field's mask covers bits lo to lo + width - 1. -/
theorem fieldMask_getLsbD {lo w i : Nat} (hi : i < 32) :
    (fieldMask lo w).getLsbD i = decide (lo ≤ i ∧ i < lo + w) := by
  simp only [fieldMask, BitVec.getLsbD_shiftLeft, BitVec.getLsbD_ofNat, hi, Nat.testBit_two_pow_sub_one,
    decide_true, Bool.true_and]
  rw [Bool.eq_iff_iff]; simp; omega

/-- A field's new bits are the value's, inside the mask. -/
theorem fieldBits_getLsbD {lo w val i : Nat} (hi : i < 32) :
    (fieldBits lo w val).getLsbD i = ((fieldMask lo w).getLsbD i && val.testBit (i - lo)) := by
  rw [fieldMask_getLsbD hi]
  simp only [fieldBits, BitVec.getLsbD_and, fieldMask_getLsbD hi, BitVec.getLsbD_shiftLeft, BitVec.getLsbD_ofNat,
    hi, decide_true, Bool.true_and]
  cases hv : val.testBit (i - lo) with
  | false => simp
  | true => simp; omega

/-- An extracted field's bits. -/
theorem fieldGet_getLsbD {lo w i : Nat} {v : Word} (h : lo + w ≤ 32) :
    (fieldGet lo w v).getLsbD i = (decide (i < w) && v.getLsbD (lo + i)) := by
  simp only [fieldGet, BitVec.getLsbD_and, BitVec.getLsbD_ushiftRight, BitVec.getLsbD_ofNat,
    Nat.testBit_two_pow_sub_one]
  cases hv : v.getLsbD (lo + i) with
  | false => simp
  | true => simp; omega

/-- A row found under a legal configuration is in range. -/
theorem fieldRow?_ok {cfg : Cfg} {name : String} {row : FieldRow} (h : cfgOk cfg = true)
    (hr : fieldRow? cfg name = some row) : fieldRowOk row = true := by
  simp only [cfgOk, Bool.and_eq_true, List.all_eq_true] at h
  exact h.1.2 row (List.mem_of_find?_eq_some hr)

/-! ## The record of writes -/

theorem lastWritten_read (k : Addr) (a : Byte) (ans : Answer) (o : Option Frame) (tr : List ExchangeRecord) :
    lastWritten k ({ sent := packFrame 0#1 a 0#32, answer := ans, owner := o } :: tr) = lastWritten k tr := by
  rw [lastWritten, List.findSome?_cons]
  simp only [ExchangeRecord.wrote, decodeFrame_read]
  cases ans <;> rfl

theorem lastWritten_failed (k : Addr) (f : Frame) {ans : Answer} (o : Option Frame) (tr : List ExchangeRecord)
    (h : ∀ r, ans ≠ .ok r) :
    lastWritten k ({ sent := f, answer := ans, owner := o } :: tr) = lastWritten k tr := by
  rw [lastWritten, List.findSome?_cons]
  cases ans with
  | ok r => exact absurd rfl (h r)
  | fault => rfl
  | silence => rfl

theorem lastWritten_write (k : Addr) (a : Byte) (v : Word) (r : Frame) (o : Option Frame)
    (tr : List ExchangeRecord) :
    lastWritten k ({ sent := packFrame 1#1 a v, answer := .ok r, owner := o } :: tr) =
      if a.setWidth 7 = k then some v else lastWritten k tr := by
  rw [lastWritten, List.findSome?_cons]
  simp only [ExchangeRecord.wrote, decodeFrame_write]
  by_cases h : a.setWidth 7 = k
  · simp only [h, if_true]
  · simp only [h, if_false]; rfl

end Sys2Proof.Machine
end

