-- ==== Sys2Proof/Laws/PerInstr.lean ====
section
/-! SUPPORT. Statements about the instruction as syntax, made per instruction: family `RoundTrip`, that a well-formed instruction's encoding decodes to it. -/

namespace Sys2Proof.Laws.RoundTrip

/-- Encoding and decoding give a well-formed instruction back. -/
def Statement (i : Instr) : Prop := i.wf = true → (encode i).instr? = some i

/-- An address operand that fits the port comes back from it. -/
theorem port_round_trip {a : Byte} (h : fitsPort a = true) : (a.setWidth 7).setWidth 8 = a := by
  apply BitVec.eq_of_toNat_eq
  simp only [fitsPort, decide_eq_true_eq] at h
  simp only [BitVec.toNat_setWidth]
  omega

/-- A datagram's address comes back from its byte. -/
theorem addr_round_trip (a : Addr) : (a.setWidth 8).setWidth 7 = a := by simp

theorem rd (a : Addr) (v : Word) : Statement (.rd a v) := fun _ =>
  congrArg some ((Machine.decodeFrame_read _ v).trans (congrArg (Instr.rd · v) (addr_round_trip a)))

theorem wr (a : Addr) (v : Word) : Statement (.wr a v) := fun _ =>
  congrArg some ((Machine.decodeFrame_write _ v).trans (congrArg (Instr.wr · v) (addr_round_trip a)))

theorem enc (dir : Bit) (a : Byte) (v : Word) : Statement (.enc dir a v) := fun h => by
  simp only [encode, Input.instr?, decodeCommand, Command.of]
  exact congrArg some (congrArg (Instr.enc dir · v) (port_round_trip h))

theorem dec (f : Frame) : Statement (.dec f) := fun _ => rfl

theorem stdec (sb : Byte) : Statement (.stdec sb) := fun _ => by
  have h : (sb.setWidth 32).extractLsb' 0 8 = sb := by
    apply BitVec.eq_of_getLsbD_eq
    intro i hi
    simp [hi, (by omega : i < 32)]
  exact congrArg (fun x => some (Instr.stdec x)) h

theorem rdreg (a : Byte) : Statement (.rdreg a) := fun h =>
  congrArg (fun x => some (Instr.rdreg x)) (port_round_trip h)

theorem wrreg (a : Byte) (v : Word) : Statement (.wrreg a v) := fun h =>
  congrArg (fun x => some (Instr.wrreg x v)) (port_round_trip h)

theorem setf (k : Byte) (m b : Word) : Statement (.setf k m b) := fun h =>
  congrArg (fun x => some (Instr.setf x m b)) (port_round_trip h)

theorem upd (k : Byte) : Statement (.upd k) := fun h =>
  congrArg (fun x => some (Instr.upd x)) (port_round_trip h)

theorem getst : Statement .getst := fun _ => rfl

theorem getsh (k : Byte) : Statement (.getsh k) := fun h =>
  congrArg (fun x => some (Instr.getsh x)) (port_round_trip h)

theorem enable : Statement .enable := fun _ => rfl

theorem disable : Statement .disable := fun _ => rfl

theorem reserved0 : Statement .reserved0 := fun _ => rfl

theorem reservedC : Statement .reservedC := fun _ => rfl

theorem reservedD : Statement .reservedD := fun _ => rfl

theorem reservedE : Statement .reservedE := fun _ => rfl

theorem reservedF : Statement .reservedF := fun _ => rfl

end Sys2Proof.Laws.RoundTrip
end

