-- ==== Sys2Proof/Laws/Shadow.lean ====
section
/-! SUPPORT. The shadow file: which index names which cell, what a change of a cell does, and that a legal shape makes a cell's address its name. -/

namespace Sys2Proof.Machine

theorem setWidth_addr_injective {a b : Addr} (h : a.setWidth 8 = b.setWidth 8) : a = b := by
  have := congrArg (BitVec.setWidth 7) h
  simpa using this

theorem ShadowCell.named_iff (c : ShadowCell) (k : Byte) : c.named k = true ↔ c.addr.setWidth 8 = k := by
  simp [ShadowCell.named]

/-- A cell found is in the file and is the one named. -/
theorem Rab.cell?_some {r : Rab} {k : Byte} {c : ShadowCell} (h : r.cell? k = some c) :
    c ∈ r.cells ∧ c.addr.setWidth 8 = k :=
  ⟨List.mem_of_find?_eq_some h, (c.named_iff k).1 (List.find?_some (p := fun d : ShadowCell => d.named k) h)⟩

theorem Rab.cell?_none {r : Rab} {k : Byte} (h : r.cell? k = none) :
    ∀ c ∈ r.cells, c.addr.setWidth 8 ≠ k := by
  intro c hc hk
  have := List.find?_eq_none.1 h c hc
  exact this ((c.named_iff k).2 hk)

/-- A change that keeps addresses keeps the file's addresses. -/
theorem Rab.updateCell_addrs (r : Rab) (k : Byte) {f : ShadowCell → ShadowCell} (hf : ∀ c, (f c).addr = c.addr) :
    (r.updateCell k f).cells.map (·.addr) = r.cells.map (·.addr) := by
  simp only [Rab.updateCell, List.map_map]
  apply List.map_congr_left
  intro c _
  simp only [Function.comp]
  split <;> simp [hf]

/-- A cell of the changed file: the changed one, or one that is as it was. -/
theorem Rab.mem_updateCell {r : Rab} {k : Byte} {f : ShadowCell → ShadowCell} {y : ShadowCell}
    (h : y ∈ (r.updateCell k f).cells) :
    (∃ c ∈ r.cells, c.addr.setWidth 8 = k ∧ y = f c) ∨ (y ∈ r.cells ∧ y.addr.setWidth 8 ≠ k) := by
  simp only [Rab.updateCell, List.mem_map] at h
  obtain ⟨c, hc, rfl⟩ := h
  by_cases hk : c.addr.setWidth 8 = k
  · exact .inl ⟨c, hc, hk, by rw [if_pos ((c.named_iff k).2 hk)]⟩
  · rw [if_neg (fun hn => hk ((c.named_iff k).1 hn))]
    exact .inr ⟨hc, hk⟩

/-- A change of the cell of register k, written with the cell's address. -/
theorem Rab.updateCell_eq (r : Rab) (k : Byte) (f : ShadowCell → ShadowCell) :
    r.updateCell k f = { r with cells := r.cells.map fun c => if c.addr.setWidth 8 = k then f c else c } := by
  simp only [Rab.updateCell, ShadowCell.named_iff]

theorem shadowed_iff (cfg : Cfg) (k : Byte) :
    shadowed cfg k = true ↔ ∃ e ∈ cfg.shadow, e.addr.setWidth 8 = k := by
  simp [shadowed]

/-- With the file's shape, an address is in `SHADOW_SET` exactly when some cell has it. -/
theorem State.FileShape.shadowed_iff {s : State} (h : s.FileShape) (k : Byte) :
    shadowed s.cfg k = true ↔ ∃ c ∈ s.rab.cells, c.addr.setWidth 8 = k := by
  have key : ∀ (P : Addr → Prop), (∃ e ∈ s.cfg.shadow, P e.addr) ↔ ∃ c ∈ s.rab.cells, P c.addr := by
    intro P
    have h2 := h.2
    constructor
    · rintro ⟨e, he, hp⟩
      have : e.addr ∈ s.rab.cells.map (·.addr) := h2 ▸ List.mem_map_of_mem he
      obtain ⟨c, hc, heq⟩ := List.mem_map.1 this
      exact ⟨c, hc, heq ▸ hp⟩
    · rintro ⟨c, hc, hp⟩
      have : c.addr ∈ s.cfg.shadow.map (·.addr) := h2 ▸ List.mem_map_of_mem hc
      obtain ⟨e, he, heq⟩ := List.mem_map.1 this
      exact ⟨e, he, heq ▸ hp⟩
  rw [Machine.shadowed_iff]
  exact key fun a => a.setWidth 8 = k

/-- A register of `SHADOW_SET` has its cell. -/
theorem State.FileShape.cell?_some {s : State} (h : s.FileShape) {k : Byte} (hk : shadowed s.cfg k = true) :
    ∃ c, s.rab.cell? k = some c := by
  cases hc : s.rab.cell? k with
  | some c => exact ⟨c, rfl⟩
  | none =>
    obtain ⟨c, hm, ha⟩ := (h.shadowed_iff k).1 hk
    exact absurd ha (Rab.cell?_none hc c hm)

/-- A register outside `SHADOW_SET` has none. -/
theorem State.FileShape.cell?_none {s : State} (h : s.FileShape) {k : Byte} (hk : shadowed s.cfg k = false) :
    s.rab.cell? k = none := by
  cases hc : s.rab.cell? k with
  | none => rfl
  | some c =>
    have := (h.shadowed_iff k).2 ⟨c, Rab.cell?_some hc⟩
    simp [hk] at this

theorem distinctAddrs_nodup {es : List ShadowEntry} (h : distinctAddrs es = true) :
    (es.map (·.addr)).Nodup := by
  induction es with
  | nil => exact List.nodup_nil
  | cons e es ih =>
    simp only [distinctAddrs, Bool.and_eq_true, List.all_eq_true, bne_iff_ne, ne_eq] at h
    rw [List.map_cons, List.nodup_cons]
    refine ⟨fun hm => ?_, ih h.2⟩
    obtain ⟨x, hx, heq⟩ := List.mem_map.1 hm
    exact h.1 x hx heq

theorem nodup_distinctAddrs : ∀ es : List ShadowEntry, (es.map (·.addr)).Nodup → distinctAddrs es = true
  | [], _ => rfl
  | e :: es, h => by
    rw [List.map_cons, List.nodup_cons] at h
    simp only [distinctAddrs, Bool.and_eq_true, List.all_eq_true, bne_iff_ne, ne_eq]
    exact ⟨fun x hx he => h.1 (he ▸ List.mem_map_of_mem hx), nodup_distinctAddrs es h.2⟩

theorem cfgOk_distinct {cfg : Cfg} (h : cfgOk cfg = true) : distinctAddrs cfg.shadow = true := by
  simp only [cfgOk, Bool.and_eq_true] at h
  exact h.2

/-- The file's addresses are distinct. -/
theorem State.FileShape.nodup {s : State} (h : s.FileShape) : (s.rab.cells.map (·.addr)).Nodup :=
  h.2 ▸ distinctAddrs_nodup (cfgOk_distinct h.1)

/-- Two cells with one address are one cell. -/
theorem State.FileShape.cell_eq {s : State} (h : s.FileShape) {x y : ShadowCell}
    (hx : x ∈ s.rab.cells) (hy : y ∈ s.rab.cells) (ha : x.addr = y.addr) : x = y :=
  List.inj_on_of_nodup_map h.nodup hx hy ha

/-- The cell a member's address names is that member. -/
theorem State.FileShape.cell?_of_mem {s : State} (h : s.FileShape) {x : ShadowCell} (hx : x ∈ s.rab.cells) :
    s.rab.cell? (x.addr.setWidth 8) = some x := by
  obtain ⟨c, hc⟩ := h.cell?_some ((h.shadowed_iff _).2 ⟨x, hx, rfl⟩)
  obtain ⟨hm, ha⟩ := Rab.cell?_some hc
  rw [hc, h.cell_eq hm hx (setWidth_addr_injective ha)]

/-- `SHADOW_RESET` of a member of a shadow set without repeats. -/
theorem shadowReset_of_mem {cfg : Cfg} (h : distinctAddrs cfg.shadow = true) {e : ShadowEntry}
    (he : e ∈ cfg.shadow) : shadowReset cfg e.addr = e.reset := by
  unfold shadowReset
  cases hf : cfg.shadow.find? (fun x => x.addr == e.addr) with
  | none =>
    have := List.find?_eq_none.1 hf e he
    simp at this
  | some x =>
    have hx : x.addr = e.addr := by simpa using List.find?_some hf
    have : x = e := List.inj_on_of_nodup_map (distinctAddrs_nodup h) (List.mem_of_find?_eq_some hf) he hx
    rw [this]

/-- A merged word's bits: the patch's where it covers, the shadow's elsewhere. -/
theorem ShadowCell.merged_getLsbD {c : ShadowCell} (h : c.pv &&& ~~~c.pm = 0) (i : Nat) (hi : i < 32) :
    c.merged.getLsbD i = if c.pm.getLsbD i then c.pv.getLsbD i else c.sh.getLsbD i := by
  have := congrArg (fun w => BitVec.getLsbD w i) h
  simp only [BitVec.getLsbD_and, BitVec.getLsbD_not, hi, decide_true, Bool.true_and] at this
  simp only [ShadowCell.merged, BitVec.getLsbD_or, BitVec.getLsbD_and, BitVec.getLsbD_not, hi, decide_true,
    Bool.true_and]
  cases hpm : c.pm.getLsbD i <;> cases hpv : c.pv.getLsbD i <;> simp_all

/-- A recorded field change keeps `PV & ~PM = 0`. -/
theorem ShadowCell.patch_inv (m b : Word) {c : ShadowCell} (h : c.pv &&& ~~~c.pm = 0) :
    (c.patch m b).pv &&& ~~~(c.patch m b).pm = 0 := by
  apply BitVec.eq_of_getLsbD_eq
  intro i hi
  have := congrArg (fun w => BitVec.getLsbD w i) h
  simp only [BitVec.getLsbD_and, BitVec.getLsbD_not, hi, decide_true, Bool.true_and] at this
  simp only [ShadowCell.patch_pv, ShadowCell.patch_pm, BitVec.getLsbD_or, BitVec.getLsbD_and,
    BitVec.getLsbD_not, hi, decide_true, Bool.true_and]
  cases hpm : c.pm.getLsbD i <;> cases hpv : c.pv.getLsbD i <;> cases hm : m.getLsbD i <;> simp_all

end Sys2Proof.Machine
end

