-- ==== Sys2Proof/Laws/Step.lean ====
section
/-! SUPPORT. What a step and a meaning can do: every instruction answers a next state, each access operation in its cases, and the step is a reset, an idle step or the meaning of what is presented. -/

namespace Sys2Proof.Machine

/-- Every instruction answers a next state (R150, R154). -/
theorem exec_next (i : Instr) (s : State) : exec i s = .next (execOr i s) := by
  cases i <;> rfl

theorem execOr_eq {i : Instr} {s t : State} (h : exec i s = .next t) : t = execOr i s := by
  rw [exec_next] at h
  injection h with h
  exact h.symm

/-- What a step that answers a next state did: it idled, drove the reset port, held the block in reset, or ran what is presented. -/
theorem step_cases {s t : State} (h : step s = .next t) :
    cfgOk s.cfg = true ∧
    ((s.inputs = [] ∧ s.cmdReady = true ∧ t = s) ∨
     (∃ level rest, nextRst s.inputs = some (level, rest) ∧
       t = State.driveRst level { s with inputs := rest }) ∨
     (s.rst = true ∧ nextRst s.inputs = none ∧ t = s.resetBlock) ∨
     (∃ x i rest, s.inputs = x :: rest ∧ s.cmdReady = true ∧ x.instr? = some i ∧
       t = execOr i { s with inputs := rest })) := by
  unfold step at h
  split at h
  · next hc =>
    refine ⟨hc, ?_⟩
    split at h
    · next hr =>
      split at h
      · next hi =>
        injection h with h
        exact .inl ⟨hi, hr, h.symm⟩
      · next level rest hi =>
        injection h with h
        exact .inr (.inl ⟨level, rest, by rw [hi]; rfl, h.symm⟩)
      · next c rest hi => exact .inr (.inr (.inr ⟨_, _, rest, hi, hr, rfl, execOr_eq h⟩))
      · next f rest hi => exact .inr (.inr (.inr ⟨_, _, rest, hi, hr, rfl, execOr_eq h⟩))
    · split at h
      · next level rest hi =>
        injection h with h
        exact .inr (.inl ⟨level, rest, hi, h.symm⟩)
      · next hn =>
        split at h
        · next hr =>
          injection h with h
          exact .inr (.inr (.inl ⟨hr, hn, h.symm⟩))
        · cases h
  · cases h

/-- While `rst` is 1 the step follows the reset port and nothing else. -/
theorem step_of_rst {s : State} (hc : cfgOk s.cfg = true) (hr : s.rst = true) :
    step s = .next (match nextRst s.inputs with
      | some (level, rest) => State.driveRst level { s with inputs := rest }
      | none => s.resetBlock) := by
  simp only [step, hc, State.cmdReady, hr]
  cases nextRst s.inputs <;> rfl

/-- What `RDREG` does, by the environment's two answers. -/
theorem execOr_rdreg (a : Byte) (s : State) :
    (∃ r1, s.env.reply = .ok r1 ∧
      ((∃ r2, (s.exchange (packFrame 0#1 a 0#32)).env.reply = .ok r2 ∧
        execOr (.rdreg a) s = ((s.exchange (packFrame 0#1 a 0#32)).exchange (packFrame 0#1 a 0#32)).respond
          { kind := .ok, data := frameData r2 }) ∨
       ((s.exchange (packFrame 0#1 a 0#32)).env.reply = .fault ∧
        execOr (.rdreg a) s =
          ((s.exchange (packFrame 0#1 a 0#32)).exchange (packFrame 0#1 a 0#32)).raise .busError) ∨
       ((s.exchange (packFrame 0#1 a 0#32)).env.reply = .silence ∧
        execOr (.rdreg a) s = ((s.exchange (packFrame 0#1 a 0#32)).exchange (packFrame 0#1 a 0#32)).hang))) ∨
    (s.env.reply = .fault ∧ execOr (.rdreg a) s = (s.exchange (packFrame 0#1 a 0#32)).raise .busError) ∨
    (s.env.reply = .silence ∧ execOr (.rdreg a) s = (s.exchange (packFrame 0#1 a 0#32)).hang) := by
  have he : execOr (.rdreg a) s = s.xchg (packFrame 0#1 a 0#32) fun _ s1 =>
      s1.xchg (packFrame 0#1 a 0#32) fun r2 s2 => s2.respond { kind := .ok, data := frameData r2 } := rfl
  rw [he]
  rcases State.xchg_cases (packFrame 0#1 a 0#32) s _ with ⟨r1, h1, e1⟩ | h | h
  · refine .inl ⟨r1, h1, ?_⟩
    rw [e1]
    exact State.xchg_cases (packFrame 0#1 a 0#32) (s.exchange (packFrame 0#1 a 0#32)) _
  · exact .inr (.inl h)
  · exact .inr (.inr h)

/-- What a refused operation does. -/
theorem State.raise_eq (k : Kind) (s : State) :
    s.raise k = { s with results := { kind := k } :: s.results } := rfl

/-- What `WRREG` does: it is refused, or it makes one exchange and goes on by the policy. -/
theorem execOr_wrreg (a : Byte) (v : Word) (s : State) :
    (∃ c, s.rab.cell? (maskAddr a) = some c ∧ s.cfg.rawWrite = .refuse ∧
      execOr (.wrreg a v) s = s.raise .refused) ∨
    ((∀ c, s.rab.cell? (maskAddr a) = some c → s.cfg.rawWrite ≠ .refuse) ∧
      execOr (.wrreg a v) s = s.xchg (packFrame 1#1 a v) fun r s1 =>
        (if s.cfg.rawWrite = .update then s1.updateCell (maskAddr a) (ShadowCell.overwrite v) else s1).respond
          (dataPacket r)) := by
  have idle : ∀ (s1 : State), s1.rab.cells = s.rab.cells → s.rab.cell? (maskAddr a) = none →
      s1.updateCell (maskAddr a) (ShadowCell.overwrite v) = s1 := by
    intro s1 hc hn
    have hmap : s1.rab.cells.map (fun c => if c.named (maskAddr a) then c.overwrite v else c) = s1.rab.cells := by
      conv => rhs; rw [← List.map_id s1.rab.cells]
      apply List.map_congr_left
      intro c hm
      rw [if_neg (fun h => Rab.cell?_none hn c (hc ▸ hm) ((c.named_iff _).1 h))]
      rfl
    show ({ s1 with rab := { s1.rab with cells := _ } } : State) = s1
    rw [hmap]
  have he : execOr (.wrreg a v) s = match s.rab.cell? (maskAddr a), s.cfg.rawWrite with
    | some _, .refuse => s.raise .refused
    | some _, .update => s.xchg (packFrame 1#1 a v) fun r s1 =>
        (s1.updateCell (maskAddr a) (ShadowCell.overwrite v)).respond (dataPacket r)
    | some _, .bypass => s.xchg (packFrame 1#1 a v) fun r s1 => s1.respond (dataPacket r)
    | none, _ => s.xchg (packFrame 1#1 a v) fun r s1 => s1.respond (dataPacket r) := rfl
  rw [he]
  cases hc : s.rab.cell? (maskAddr a) with
  | some c =>
    cases hp : s.cfg.rawWrite with
    | refuse => exact .inl ⟨c, rfl, rfl, rfl⟩
    | update => exact .inr ⟨by simp, by simp⟩
    | bypass => exact .inr ⟨by simp, by simp⟩
  | none =>
    refine .inr ⟨by simp, ?_⟩
    cases hp : s.cfg.rawWrite with
    | refuse => simp
    | bypass => simp
    | update =>
      simp only [if_true]
      rcases State.xchg_cases (packFrame 1#1 a v) s
        (fun r s1 => s1.respond (dataPacket r)) with ⟨r, hr, e⟩ | ⟨hr, e⟩ | ⟨hr, e⟩
      · rw [e, State.xchg_ok _ hr, idle (s.exchange (packFrame 1#1 a v)) rfl hc]
      · rw [e, State.xchg_fault _ hr]
      · rw [e, State.xchg_silence _ hr]

/-- What `SETF`, `UPD` and `GETSH` do: refused without a cell. -/
theorem execOr_setf (k : Byte) (m b : Word) (s : State) :
    (s.rab.cell? k = none ∧ execOr (.setf k m b) s = s.raise .refused) ∨
    (∃ c, s.rab.cell? k = some c ∧
      execOr (.setf k m b) s = (s.updateCell k (ShadowCell.patch m b)).respond { kind := .ok }) := by
  have he : execOr (.setf k m b) s = match s.rab.cell? k with
    | none => s.raise .refused
    | some _ => (s.updateCell k (ShadowCell.patch m b)).respond { kind := .ok } := rfl
  rw [he]
  cases hc : s.rab.cell? k with
  | none => exact .inl ⟨rfl, rfl⟩
  | some c => exact .inr ⟨c, rfl, rfl⟩

theorem execOr_upd (k : Byte) (s : State) :
    (s.rab.cell? k = none ∧ execOr (.upd k) s = s.raise .refused) ∨
    (∃ c, s.rab.cell? k = some c ∧
      execOr (.upd k) s = s.xchg (packFrame 1#1 k c.merged) fun r s1 =>
        (s1.updateCell k (ShadowCell.commit c.merged)).respond (dataPacket r)) := by
  have he : execOr (.upd k) s = match s.rab.cell? k with
    | none => s.raise .refused
    | some c => s.xchg (packFrame 1#1 k c.merged) fun r s1 =>
        (s1.updateCell k (ShadowCell.commit c.merged)).respond (dataPacket r) := rfl
  rw [he]
  cases hc : s.rab.cell? k with
  | none => exact .inl ⟨rfl, rfl⟩
  | some c => exact .inr ⟨c, rfl, rfl⟩

theorem execOr_getsh (k : Byte) (s : State) :
    (s.rab.cell? k = none ∧ execOr (.getsh k) s = s.raise .refused) ∨
    (∃ c, s.rab.cell? k = some c ∧
      execOr (.getsh k) s = s.respond { kind := .ok, data := c.sh, frame := c.merged.setWidth 40 }) := by
  have he : execOr (.getsh k) s = match s.rab.cell? k with
    | none => s.raise .refused
    | some c => s.respond { kind := .ok, data := c.sh, frame := c.merged.setWidth 40 } := rfl
  rw [he]
  cases hc : s.rab.cell? k with
  | none => exact .inl ⟨rfl, rfl⟩
  | some c => exact .inr ⟨c, rfl, rfl⟩

/-! ## What every meaning and every step keeps -/

/-- A property kept by everything the meanings are made of is kept by every instruction. -/
theorem exec_keeps (P : State → Prop)
    (respond : ∀ r s, P s → P (s.respond r)) (hang : ∀ s, P s → P s.hang)
    (exchange : ∀ s c, P s → P (s.exchange c))
    (take : ∀ s i f, P s → P { s with env := s.env.take i f })
    (drive : ∀ s on, P s → s.cfg.hasEnable = true →
      P { s with rab := { s.rab with en := enableLevel s.cfg on }, env := s.env.pinWrite })
    (pinWrite : ∀ s, P s → P { s with env := s.env.pinWrite })
    (patch : ∀ s k m b, P s → P (s.updateCell k (ShadowCell.patch m b)))
    (overwrite : ∀ s a v r, P s → s.env.reply = .ok r → s.cfg.rawWrite = .update →
      P ((s.exchange (packFrame 1#1 a v)).updateCell (maskAddr a) (ShadowCell.overwrite v)))
    (commit : ∀ s k x r, P s → s.env.reply = .ok r → s.rab.cell? k = some x →
      P ((s.exchange (packFrame 1#1 k x.merged)).updateCell k (ShadowCell.commit x.merged)))
    (i : Instr) (s : State) (h : P s) : P (execOr i s) := by
  have pin : ∀ on, P (s.drivePin on) := by
    intro on
    rcases State.drivePin_cases on s with ⟨he, _, e⟩ | ⟨_, _, e⟩ | ⟨_, e⟩ <;> rw [e]
    · exact respond _ _ (drive _ _ h he)
    · exact respond _ _ (pinWrite _ h)
    · exact respond _ _ h
  cases i
  case rd => exact take _ _ _ h
  case wr => exact take _ _ _ h
  case rdreg a =>
    rcases execOr_rdreg a s with ⟨r1, h1, ⟨r2, h2, e⟩ | ⟨h2, e⟩ | ⟨h2, e⟩⟩ | ⟨h1, e⟩ | ⟨h1, e⟩ <;> rw [e]
    · exact respond _ _ (exchange _ _ (exchange _ _ h))
    · exact respond _ _ (exchange _ _ (exchange _ _ h))
    · exact hang _ (exchange _ _ (exchange _ _ h))
    · exact respond _ _ (exchange _ _ h)
    · exact hang _ (exchange _ _ h)
  case wrreg a v =>
    rcases execOr_wrreg a v s with ⟨_, _, _, e⟩ | ⟨_, e⟩
    · rw [e]; exact respond _ _ h
    · rcases State.xchg_cases (packFrame 1#1 a v) s (fun r s1 =>
        (if s.cfg.rawWrite = .update then s1.updateCell (maskAddr a) (ShadowCell.overwrite v) else s1).respond
          (dataPacket r)) with ⟨r, hr, e'⟩ | ⟨_, e'⟩ | ⟨_, e'⟩ <;> rw [e, e']
      · apply respond; split
        · next hu => exact overwrite s a v r h hr hu
        · exact exchange _ _ h
      · exact respond _ _ (exchange _ _ h)
      · exact hang _ (exchange _ _ h)
  case upd k =>
    rcases execOr_upd k s with ⟨_, e⟩ | ⟨x, hc, e⟩
    · rw [e]; exact respond _ _ h
    · rcases State.xchg_cases (packFrame 1#1 k x.merged) s (fun r s1 =>
        (s1.updateCell k (ShadowCell.commit x.merged)).respond (dataPacket r)) with
        ⟨r, hr, e'⟩ | ⟨_, e'⟩ | ⟨_, e'⟩ <;> rw [e, e']
      · exact respond _ _ (commit s k x r h hr hc)
      · exact respond _ _ (exchange _ _ h)
      · exact hang _ (exchange _ _ h)
  case setf k m b =>
    rcases execOr_setf k m b s with ⟨_, e⟩ | ⟨x, _, e⟩ <;> rw [e]
    · exact respond _ _ h
    · exact respond _ _ (patch _ _ _ _ h)
  case getsh k =>
    rcases execOr_getsh k s with ⟨_, e⟩ | ⟨x, _, e⟩ <;> rw [e] <;> exact respond _ _ h
  case enable => exact pin true
  case disable => exact pin false
  all_goals exact respond _ _ h

/-- A property kept by reset, by the level of `rst`, by the inputs and by every instruction is kept by the step. -/
theorem step_keeps (P : State → Prop) {s t : State} (h : step s = .next t) (h0 : P s)
    (reset : ∀ s, cfgOk s.cfg = true → P s → P s.resetBlock)
    (rst : ∀ s level, P s → P { s with rst := level })
    (inputs : ∀ s xs, P s → P { s with inputs := xs })
    (exec : ∀ i s, P s → P (execOr i s)) : P t := by
  obtain ⟨hc, ⟨_, _, rfl⟩ | ⟨level, rest, _, rfl⟩ | ⟨_, _, rfl⟩ | ⟨x, i, rest, _, _, _, rfl⟩⟩ := step_cases h
  · exact h0
  · unfold State.driveRst
    split
    · exact rst _ _ (reset _ hc (inputs _ _ h0))
    · exact inputs _ _ h0
  · exact reset _ hc h0
  · exact exec _ _ (inputs _ _ h0)

/-- No instruction looks at the reset port. -/
theorem execOr_rst (i : Instr) (s : State) : (execOr i s).rst = s.rst := by
  apply exec_keeps (fun u => u.rst = s.rst) <;> intros <;> first | assumption | rfl

/-- No instruction looks at the inputs. -/
theorem execOr_inputs (i : Instr) (s : State) : (execOr i s).inputs = s.inputs := by
  apply exec_keeps (fun u => u.inputs = s.inputs) <;> intros <;> first | assumption | rfl

end Sys2Proof.Machine
end

