-- ==== Sys2Proof/Machine/Asm.lean ====
section
/-! DEFINITION. How a host program is written (R73): one operation per line, the mnemonic in capitals, its operands separated by commas, numbers in hexadecimal. Presentational (D25). -/

namespace Sys2Proof.Machine

/-- One hexadecimal digit. -/
def hexDigit (n : Nat) : Char :=
  if n < 10 then Char.ofNat (48 + n) else Char.ofNat (55 + n)

/-- The low n hexadecimal digits of a number, the most significant first. -/
def hexDigits : Nat → Nat → List Char
  | 0, _ => []
  | n + 1, w => hexDigits n (w / 16) ++ [hexDigit (w % 16)]

/-- A number in hexadecimal with `0x` and n digits (R73). -/
def hex (n w : Nat) : List Char := ['0', 'x'] ++ hexDigits n w

/-- The mnemonic of R66, or the row's name in spec/opcode_table.json. -/
def mnemonic (i : Instr) : String :=
  match i with
  | .rd _ _ => "RD"
  | .wr _ _ => "WR"
  | .enc _ _ _ => "ENC"
  | .dec _ => "DEC"
  | .stdec _ => "STDEC"
  | .rdreg _ => "RDREG"
  | .wrreg _ _ => "WRREG"
  | .setf _ _ _ => "SETF"
  | .upd _ => "UPD"
  | .getst => "GETST"
  | .getsh _ => "GETSH"
  | .enable => "ENABLE"
  | .disable => "DISABLE"
  | .reserved0 => "RESERVED_0"
  | .reservedC => "RESERVED_C"
  | .reservedD => "RESERVED_D"
  | .reservedE => "RESERVED_E"
  | .reservedF => "RESERVED_F"

/-- The operands as R66 and R73 write them; a wire datagram is `RD a` or `WR a, v`. -/
def operandTexts (i : Instr) : List (List Char) :=
  match i with
  | .rd a _ => [hex 2 a.toNat]
  | .wr a v => [hex 2 a.toNat, hex 8 v.toNat]
  | .enc dir a v => [hexDigits 1 dir.toNat, hex 2 a.toNat, hex 8 v.toNat]
  | .dec f => [hex 10 f.toNat]
  | .stdec sb => [hex 2 sb.toNat]
  | .rdreg a => [hex 2 a.toNat]
  | .wrreg a v => [hex 2 a.toNat, hex 8 v.toNat]
  | .setf k m b => [hex 2 k.toNat, hex 8 m.toNat, hex 8 b.toNat]
  | .upd k => [hex 2 k.toNat]
  | .getst => []
  | .getsh k => [hex 2 k.toNat]
  | .enable => []
  | .disable => []
  | .reserved0 => []
  | .reservedC => []
  | .reservedD => []
  | .reservedE => []
  | .reservedF => []

/-- Operands separated by a comma and a space. -/
def joinOperands : List (List Char) → List Char
  | [] => []
  | [x] => x
  | x :: y :: rest => x ++ [',', ' '] ++ joinOperands (y :: rest)

/-- One line of a host program (R73). -/
def asmLine (i : Instr) : List Char :=
  match operandTexts i with
  | [] => (mnemonic i).toList
  | xs => (mnemonic i).toList ++ [' '] ++ joinOperands xs

end Sys2Proof.Machine
end

