-- ==== Sys2Proof/Tests/Slice0.lean ====
section
/-! SUPPORT. The model's own tests, each a named theorem on fixed values. The expected values are the spec's (30_encoding.md, 95_test_vectors.md; the vector's name stands in the docstring), never the model's answers. Then the witnesses: for every statement with hypotheses, concrete values that meet them all. -/

namespace Sys2Proof.Tests

open Sys2Proof.Machine

/-! ## Helpers -/

/-- The reset state with the transport's answers written out: the "mock transport" of 95_test_vectors.md. -/
def mock (answers : List Answer) : State :=
  { State.reset with env := { State.reset.env with answers := answers } }

/-- The reset state with the pin driver's answers written out. -/
def mockPins (pins : List PinAnswer) : State :=
  { State.reset with env := { State.reset.env with pins := pins } }

/-- A state under another configuration's straps. -/
def underCfg (cfg : Cfg) (s : State) : State := { s with cfg := cfg, rab := Rab.construct cfg }

/-- What an operation did: its result, the block after it and the frames sent, the first one first. -/
def did (i : Instr) (s : State) : Option Result × Rab × List Frame :=
  ((execOr i s).results.head?, (execOr i s).rab, ((execOr i s).env.trace.map (·.sent)).reverse)

/-- The block at reset under CFG_TEST, with the cell of register 0x10 and the status latch as given. -/
def block (sh pm pv : Word) (st : Option Byte) : Rab where
  cells := [⟨0x00, 0, 0, 0⟩, ⟨0x10, sh, pm, pv⟩, ⟨0x6C, 0x10410150, 0, 0⟩]
  st := st
  en := .undriven

/-- The state after vector H1, with the transport's answers written out. -/
def afterH1 (answers : List Answer) : State := { mock answers with rab := block 0 0x00001F00 0x00000A00 none }

/-! ## Well-formedness: an ill-formed term for each check (R27: the port `a` has 7 bits) -/

theorem test_wf_enc : (Instr.enc 0 0x80 0).wf = false ∧ (Instr.enc 0 0x7F 0).wf = true := by decide
theorem test_wf_rdreg : (Instr.rdreg 0x80).wf = false ∧ (Instr.rdreg 0x7F).wf = true := by decide
theorem test_wf_wrreg : (Instr.wrreg 0xFF 0).wf = false ∧ (Instr.wrreg 0x7F 0).wf = true := by decide
theorem test_wf_setf : (Instr.setf 0x80 0 0).wf = false ∧ (Instr.setf 0x7F 0 0).wf = true := by decide
theorem test_wf_upd : (Instr.upd 0x80).wf = false ∧ (Instr.upd 0x7F).wf = true := by decide
theorem test_wf_getsh : (Instr.getsh 0x80).wf = false ∧ (Instr.getsh 0x7F).wf = true := by decide

/-! ## Decoding: words written out from the spec's encodings -/

/-- R60, V1: bit 39 = 1, address 0000001, value DEADBEEF, in transmission order. -/
theorem test_decode_wr : decodeBytes [0x81, 0xDE, 0xAD, 0xBE, 0xEF] = .ok (.frame 0x81DEADBEEF) ∧
    decodeFrame 0b1000000111011110101011011011111011101111#40 = .wr 0x01 0xDEADBEEF := by decide
/-- R60, E4: bit 39 = 0, address 1111111. -/
theorem test_decode_rd : decodeFrame 0b0111111100000000000000000000000000000000#40 = .rd 0x7F 0 := by decide
/-- R66, E11: code 0x1. -/
theorem test_decode_enc : decodeCommand ⟨0b0001, 1, 0x10, 0x00061F0A, 0, 0⟩ = .enc 1 0x10 0x00061F0A := by decide
/-- R66, D1v: code 0x2. -/
theorem test_decode_dec : decodeCommand ⟨0b0010, 0, 0, 0, 0, 0x0912345678⟩ = .dec 0x0912345678 := by decide
/-- R66, S9: code 0x3, the low byte of `wdata`. -/
theorem test_decode_stdec : decodeCommand ⟨0b0011, 0, 0, 0xABCDEFF0, 0, 0⟩ = .stdec 0xF0 := by decide
/-- R66, P1 step 7: code 0x4. -/
theorem test_decode_rdreg : decodeCommand ⟨0b0100, 1, 0x10, 5, 6, 7⟩ = .rdreg 0x10 := by decide
/-- R66, P2 step 3: code 0x5. -/
theorem test_decode_wrreg : decodeCommand ⟨0b0101, 0, 0x2D, 0x0000C800, 9, 9⟩ = .wrreg 0x2D 0x0000C800 := by decide
/-- R66, P1 step 2: code 0x6, `m` on `wmask`, `b` on `wdata`. -/
theorem test_decode_setf : decodeCommand ⟨0b0110, 0, 0x10, 0x00000A00, 0x00001F00, 0⟩ =
    .setf 0x10 0x00001F00 0x00000A00 := by decide
/-- R66, P3 step 4: code 0x7. -/
theorem test_decode_upd : decodeCommand ⟨0b0111, 0, 0x6C, 0, 0, 0⟩ = .upd 0x6C := by decide
/-- R66: code 0x8. -/
theorem test_decode_getst : decodeCommand ⟨0b1000, 1, 0x7F, 1, 1, 1⟩ = .getst := by decide
/-- R66, P1 step 4: code 0x9. -/
theorem test_decode_getsh : decodeCommand ⟨0b1001, 0, 0x10, 0, 0, 0⟩ = .getsh 0x10 := by decide
/-- R66: codes 0xA, 0xB. -/
theorem test_decode_pins : decodeCommand ⟨0b1010, 0, 0, 0, 0, 0⟩ = .enable ∧
    decodeCommand ⟨0b1011, 0, 0, 0, 0, 0⟩ = .disable := by decide
/-- R68: codes 0x0, 0xC, 0xD, 0xE, 0xF. -/
theorem test_decode_reserved : decodeCommand ⟨0b0000, 0, 0, 0, 0, 0⟩ = .reserved0 ∧
    decodeCommand ⟨0b1100, 0, 0, 0, 0, 0⟩ = .reservedC ∧ decodeCommand ⟨0b1101, 0, 0, 0, 0, 0⟩ = .reservedD ∧
    decodeCommand ⟨0b1110, 0, 0, 0, 0, 0⟩ = .reservedE ∧ decodeCommand ⟨0b1111, 0, 0, 0, 0, 0⟩ = .reservedF := by
  decide
/-- spec/opcode_table.json: 40-bit datagrams and the `op` codes. -/
theorem test_decode_table_words : decodeTableWord 40 0x81DEADBEEF = some (.wr 0x01 0xDEADBEEF) ∧
    decodeTableWord 40 0 = some (.rd 0 0) ∧ decodeTableWord 8 0x1 = some (.enc 0 0 0) ∧
    decodeTableWord 8 0x7 = some (.upd 0) ∧ decodeTableWord 8 0xF = some .reservedF := by decide
/-- Bytes that stand for nothing are rejected by name. -/
theorem test_decode_reject : decodeBytes [1, 2, 3, 4] = .error (.length 4) ∧
    decodeBytes [8, 0, 0, 0, 0, 0, 0, 0, 0, 0, 0, 0, 0, 0, 0x10] = .error .padding ∧
    decodeBytes [8, 0, 0, 0, 0, 0, 0, 0, 0, 0, 0, 0, 0, 0, 0] = .ok (.command ⟨8, 0, 0, 0, 0, 0⟩) := by decide

/-! ## Instructions -/

/-- 92_eei_decisions.md D18: a read latches the register's content; the block stands. -/
theorem test_rd : ((execOr (.rd 0x6C 0) State.reset.attachRefDev).env.device.map (·.latch)) = some 0x10410150 ∧
    (execOr (.rd 0x6C 0) State.reset.attachRefDev).rab = State.reset.rab := by decide
/-- D18: a write stores and latches. -/
theorem test_wr : (execOr (.wr 0x2D 0xC800) State.reset.attachRefDev).env.device =
    some ⟨[(0x2D, 0xC800), (0x6C, 0x10410150)], 0xC800⟩ := by decide
/-- E6: the address is masked; the byte order shows. -/
theorem test_enc_masks : (did (.enc 1 0x81 0x01020304) State.reset).1 =
    some { kind := .ok, frame := 0x8101020304 } := by decide
/-- E7: bit 7 of the address cannot turn a read into a write. -/
theorem test_enc_direction : (did (.enc 0 0xFF 0) State.reset).1 = some { kind := .ok, frame := 0x7F00000000 } := by
  decide
/-- D1v, and `DEC` does not write `ST`. -/
theorem test_dec : did (.dec 0x0912345678) State.reset =
    (some { kind := .ok, status := 0x09, data := 0x12345678 }, State.reset.rab, []) := by decide
/-- S6. -/
theorem test_stdec : (did (.stdec 0x09) State.reset).1 = some { kind := .ok, status := 0x09, flags := 0b1001 } := by
  decide
/-- 2.3, the second configuration: the order of `flags` does not change. -/
theorem test_stdec_positions : (did (.stdec 0x40) (underCfg { Cfg.test with statusBitOtw := 6 } State.reset)).1 =
    some { kind := .ok, status := 0x40, flags := 0b0100 } := by decide
/-- R1v. -/
theorem test_rdreg : did (.rdreg 0x6F) (mock [.ok 0x08AAAAAAAA, .ok 0x098000001F]) =
    (some { kind := .ok, data := 0x8000001F }, block 0 0 0 (some 0x09), [0x6F00000000, 0x6F00000000]) := by decide
/-- R4v (the latch holds 0x08 before). -/
theorem test_rdreg_second_fault :
    did (.rdreg 0xEF) { mock [.ok 0x0155555555, .fault] with rab := block 0 0 0 (some 0x08) } =
    (some { kind := .busError }, block 0 0 0 (some 0x01), [0x6F00000000, 0x6F00000000]) := by decide
/-- W3, policy `update`. -/
theorem test_wrreg_update : did (.wrreg 0x10 0x00000505) (mock [.ok 0x0000000000]) =
    (some { kind := .ok }, block 0x00000505 0 0 (some 0x00), [0x9000000505]) := by decide
/-- W5, policy `refuse`. -/
theorem test_wrreg_refuse :
    did (.wrreg 0x10 0x00000505) (underCfg { Cfg.test with rawWrite := .refuse } (mock [.ok 0])) =
    (some { kind := .refused }, block 0 0 0 none, []) := by decide
/-- H4: bits of b outside m are ignored. -/
theorem test_setf : did (.setf 0x10 0x00000F00 0xFFFFFFFF) (afterH1 []) =
    (some { kind := .ok }, block 0 0x00001F00 0x00000F00 none, []) := by decide
/-- H13: not shadowed. -/
theorem test_setf_refused : did (.setf 0x11 1 1) State.reset = (some { kind := .refused }, block 0 0 0 none, []) := by
  decide
/-- H7. -/
theorem test_upd : did (.upd 0x10) (afterH1 [.ok 0x0800000000]) =
    (some { kind := .ok, status := 0x08 }, block 0x00000A00 0 0 (some 0x08), [0x9000000A00]) := by decide
/-- H8. -/
theorem test_upd_fault : did (.upd 0x10) (afterH1 [.fault]) =
    (some { kind := .busError }, block 0 0x00001F00 0x00000A00 none, [0x9000000A00]) := by decide
/-- G4v. -/
theorem test_getst : (did .getst { State.reset with rab := block 0 0 0 (some 0x09) }).1 =
    some { kind := .ok, valid := 1, status := 0x09, flags := 0b1001 } := by decide
/-- G1v. -/
theorem test_getst_none : (did .getst State.reset).1 = some { kind := .ok } := by decide
/-- H6. -/
theorem test_getsh : did (.getsh 0x10) (afterH1 []) =
    (some { kind := .ok, data := 0, frame := 0x0000000A00 }, block 0 0x00001F00 0x00000A00 none, []) := by decide
/-- H15, and an index of eight bits names no cell (log 9). -/
theorem test_getsh_refused : (did (.getsh 0x7F) State.reset).1 = some { kind := .refused } ∧
    (did (.getsh 0x90) State.reset).1 = some { kind := .refused } := by decide
/-- N1v. -/
theorem test_enable : did .enable (mockPins [.ok]) =
    (some { kind := .ok }, { block 0 0 0 none with en := .high }, []) := by decide
/-- N3v. -/
theorem test_enable_inverted : (did .enable (underCfg { Cfg.test with invertEnable := true } (mockPins [.ok]))).2.1.en =
    .low := by decide
/-- N6v. -/
theorem test_disable_pin_fault :
    did .disable { mockPins [.fault] with rab := { block 0 0 0 none with en := .high } } =
    (some { kind := .pinError }, { block 0 0 0 none with en := .high }, []) := by decide
/-- N4v. -/
theorem test_disable_inverted :
    (did .disable (underCfg { Cfg.test with invertEnable := true } (mockPins [.ok]))).2.1.en = .high := by decide
/-- 2.10. -/
theorem test_reserved : did .reserved0 (afterH1 []) = (some { kind := .refused }, (afterH1 []).rab, []) ∧
    did .reservedC (afterH1 []) = (some { kind := .refused }, (afterH1 []).rab, []) ∧
    did .reservedD (afterH1 []) = (some { kind := .refused }, (afterH1 []).rab, []) ∧
    did .reservedE (afterH1 []) = (some { kind := .refused }, (afterH1 []).rab, []) ∧
    did .reservedF (afterH1 []) = (some { kind := .refused }, (afterH1 []).rab, []) := by decide

/-! ## Fields, the reference device, the step, the ports -/

/-- F4: a 6-bit value is truncated to the field's 5 bits. -/
theorem test_setfld : expandPseudo Cfg.test (.setfld "irun" 0x2A) =
    some (.operation (.setf 0x10 0x00001F00 0x00000A00)) := by decide
/-- 2.4: `get(irun, 0x00061F0A)`. -/
theorem test_getfld : expandPseudo Cfg.test (.getfld "irun" 0x00061F0A) = some (.value 0x1F) := by decide
/-- P2 step 3: the value answered belongs to the write before. -/
theorem test_refdev_lag :
    (execOr (.wrreg 0x2D 0xC800) (execOr (.wrreg 0x01 7)
      (mock [.ok 0x0100000000, .ok 0x0000000000]).attachRefDev)).results.head? =
    some { kind := .ok, status := 0x00, data := 0x00000007 } := by decide
/-- R190, R32: an exchange that never answers; `rst` rising keeps `cmd_ready` at 0, its release recovers the block. -/
theorem test_hang : (execOr (.rdreg 0) (mock [.silence])).cmdReady = false ∧
    ((execOr (.rdreg 0) (mock [.silence])).driveRst true).cmdReady = false ∧
    (((execOr (.rdreg 0) (mock [.silence])).driveRst true).driveRst false).cmdReady = true := by decide
/-- R32: the reset port is looked at though a command stands before it, and the command waits for its release. -/
theorem test_rst : step { State.reset with rst := true, inputs := [.command ⟨0x8, 0, 0, 0, 0, 0⟩, .rst false] } =
    .next { State.reset with inputs := [.command ⟨0x8, 0, 0, 0, 0, 0⟩] } := rfl
/-- R29, R32: `x_start` is raised by a flush, by no `GETST`, and not while `rst` is 1. -/
theorem test_x_start : ((mock [.ok 1]).withFetchWord 8 0x7).xStart = true ∧
    ((mock [.ok 1]).withFetchWord 8 0x8).xStart = false ∧
    ({ (mock [.ok 1]).withFetchWord 8 0x7 with rst := true } : State).xStart = false := by decide
/-- R28, R29: the ports' signals, N6v and V1. -/
theorem test_ports : (execOr .disable (mockPins [.fault])).resultPort = some ⟨2, 0, 0, 0, 0, 0⟩ ∧
    ((execOr (.wrreg 0x01 0xDEADBEEF) (mock [.fault])).env.trace.head?.map ExchangeRecord.port) =
      some ⟨0x81DEADBEEF, true, true, none⟩ := by decide
/-- R73: a line of a host program. -/
theorem test_asm : asmLine (.wrreg 0x01 0xDEADBEEF) = "WRREG 0x01, 0xDEADBEEF".toList ∧
    asmLine .getst = "GETST".toList := by decide
/-- A presented word is what the next step runs (R27, R30). -/
theorem test_step : step (State.reset.withFetchWord 8 0x9) = exec (.getsh 0x00) State.reset ∧
    step (State.reset.withFetchWord 40 0x81DEADBEEF) = exec (.wr 0x01 0xDEADBEEF) State.reset := ⟨rfl, rfl⟩

/-! ## Witnesses: the hypotheses of every statement can be met -/

/-- A legal configuration under each policy. -/
def cfgWith (p : RawWrite) : Cfg := { Cfg.test with rawWrite := p }

/-- A state after reset under a policy, with the transport's answers written out. -/
def mockWith (p : RawWrite) (answers : List Answer) : State := underCfg (cfgWith p) (mock answers)

/-- The state on the reference device. -/
def onRefDev (answers : List Answer) : State := (mock answers).attachRefDev

/-- The cell of register 0x6C at reset. -/
def cell6C : ShadowCell := ⟨0x6C, 0x10410150, 0, 0⟩

theorem mock_shape (answers : List Answer) : (mock answers).FileShape :=
  ⟨by show cfgOk Cfg.test = true; decide, rfl⟩

theorem mockWith_shape (p : RawWrite) (answers : List Answer) : (mockWith p answers).FileShape := by
  cases p <;> exact ⟨by show cfgOk (cfgWith _) = true; decide, rfl⟩

theorem onRefDev_shape (answers : List Answer) : (onRefDev answers).FileShape := mock_shape answers

theorem afterH1_shape (answers : List Answer) : (afterH1 answers).FileShape := mock_shape answers

theorem mock_patch (answers : List Answer) : (mock answers).PatchInv := by
  show ∀ c ∈ (block 0 0 0 none).cells, c.pv &&& ~~~c.pm = 0
  decide

theorem afterH1_patch (answers : List Answer) : (afterH1 answers).PatchInv := by
  show ∀ c ∈ (block 0 0x00001F00 0x00000A00 none).cells, c.pv &&& ~~~c.pm = 0
  decide

theorem onRefDev_device (answers : List Answer) : (onRefDev answers).DeviceInv := by
  intro d hd
  injection hd with hd
  subst hd
  exact RefDev.initial_wf _

theorem witness_ResetFlagStandsAlone : cfgOk State.reset.cfg = true ∧
    cfgOk { Cfg.test with statusBitOtw := 7 } = true := by decide

theorem witness_GetstReturnsLatchedStatus :
    ({ State.reset with rab := block 0 0 0 (some 0xFF) } : State).rab.st = some 0xFF ∧
    State.reset.rab.st = none := by decide

theorem witness_RdregReturnsSecondResponse : frameBytes 0x7F00000000 = [0xFF &&& 0x7F#8, 0, 0, 0, 0] ∧
    (mock [.ok 1, .ok 2]).env.reply = .ok 1 ∧
    ((mock [.ok 1, .ok 2]).env.exchange 0x7F00000000).reply = .ok 2 := by decide

theorem witness_RdregFailsOnEitherExchange : frameBytes 0 = [0x80 &&& 0x7F#8, 0, 0, 0, 0] ∧
    (mock [.fault]).env.reply = .fault ∧
    (mock [.ok 1, .fault]).env.reply = .ok 1 ∧ ((mock [.ok 1, .fault]).env.exchange 0).reply = .fault := by decide

theorem witness_ReadDecodedFromSecondResponse : (mock [.ok 1, .ok 2]).env.device = none ∧
    (mock [.ok 1, .ok 2]).env.answers = .ok 1 :: .ok 2 :: [] := by decide

theorem witness_RdregOnReferenceDevice :
    (onRefDev [.ok 1, .ok 2]).env.device = some (RefDev.initial Cfg.test) ∧
    (onRefDev [.ok 1, .ok 2]).env.answers = .ok 1 :: .ok 2 :: [] := by decide

theorem witness_WrregWritesOnce :
    (mockWith .refuse []).FileShape ∧
    frameBytes 0xEC00000005 = bytesWith (0x80#8 ||| (0xEC &&& 0x7F#8)) 5 ∧
    shadowed (mockWith .refuse []).cfg (0xEC &&& 0x7F#8) = true ∧ (mockWith .refuse []).cfg.rawWrite = .refuse ∧
    (mockWith .bypass [.ok 1]).FileShape ∧
    ¬(shadowed (mockWith .bypass [.ok 1]).cfg (0xEC &&& 0x7F#8) = true ∧
      (mockWith .bypass [.ok 1]).cfg.rawWrite = .refuse) ∧
    (mockWith .bypass [.ok 1]).env.reply = .ok 1 ∧ (mockWith .update [.fault]).env.reply = .fault ∧
    (mockWith .update [.ok 1]).env.reply = .ok 1 :=
  ⟨mockWith_shape _ _, by decide, by decide, by decide, mockWith_shape _ _, by decide, by decide, by decide,
    by decide⟩

/-- Under `update` for a shadowed address, and under `refuse` for a plain one. -/
theorem witness_WriteThenReadOnReferenceDevice : (onRefDev [.ok 1, .ok 2, .ok 3]).FileShape ∧
    (onRefDev [.ok 1, .ok 2, .ok 3]).DeviceInv ∧
    ¬(shadowed (onRefDev [.ok 1, .ok 2, .ok 3]).cfg (0x6C &&& 0x7F#8) = true ∧
      (onRefDev [.ok 1, .ok 2, .ok 3]).cfg.rawWrite = .refuse) ∧
    (onRefDev [.ok 1, .ok 2, .ok 3]).env.device = some (RefDev.initial Cfg.test) ∧
    (onRefDev [.ok 1, .ok 2, .ok 3]).env.answers = .ok 1 :: .ok 2 :: .ok 3 :: [] ∧
    (mockWith .refuse []).FileShape ∧ (mockWith .refuse []).attachRefDev.DeviceInv ∧
    ¬(shadowed (mockWith .refuse []).cfg (0xFF &&& 0x7F#8) = true ∧
      (mockWith .refuse []).cfg.rawWrite = .refuse) :=
  ⟨onRefDev_shape _, onRefDev_device _, by decide, by decide, by decide, mockWith_shape _ _,
    (by intro d hd; injection hd with hd; subst hd; exact RefDev.initial_wf _), by decide⟩

/-- Both clauses, at a member of `SHADOW_SET`, at the lowest one, at a neighbour and at an index of eight bits. -/
theorem witness_SetfRecordsPatch : (mock []).FileShape ∧ shadowed (mock []).cfg 0x6C = true ∧
    shadowed (mock []).cfg 0x00 = true ∧ shadowed (mock []).cfg 0x6D = false ∧
    shadowed (mock []).cfg 0xEC = false :=
  ⟨mock_shape _, by decide, by decide, by decide, by decide⟩

theorem witness_SettersCompose : (mock []).FileShape ∧ shadowed (mock []).cfg 0x10 = true ∧
    (0x0000001F#32 &&& 0x00001F00#32 = 0) ∧ (0x6C#8 ≠ 0x10#8) :=
  ⟨mock_shape _, by decide, by decide, by decide⟩

theorem witness_UpdWritesBackWholeWord : (afterH1 [.ok 1]).FileShape ∧
    ⟨0x10, 0, 0x00001F00, 0x00000A00⟩ ∈ (afterH1 [.ok 1]).rab.cells ∧ (0x10#7).setWidth 8 = 0x10#8 ∧
    frameBytes 0x9000000A00 = bytesWith (0x80#8 ||| 0x10#8) ((0 &&& ~~~0x00001F00#32) ||| 0x00000A00) ∧
    (afterH1 [.ok 1]).env.reply = .ok 1 ∧ (afterH1 [.fault]).env.reply = .fault ∧
    shadowed (afterH1 []).cfg 0x11 = false ∧ shadowed (afterH1 []).cfg 0x90 = false :=
  ⟨afterH1_shape _, by decide, by decide, by decide, by decide, by decide, by decide, by decide⟩

theorem witness_UpdWithNothingPendingRewritesShadow : (mock [.ok 1]).FileShape ∧ (mock [.ok 1]).PatchInv ∧
    cell6C ∈ (mock [.ok 1]).rab.cells ∧ cell6C.pm = 0 ∧ (mock [.ok 1]).env.reply = .ok 1 :=
  ⟨mock_shape _, mock_patch _, by decide, by decide, by decide⟩

theorem witness_WriteBackHasBothFields : (mock [.ok 1]).FileShape ∧ (mock [.ok 1]).PatchInv ∧
    cell6C ∈ (mock [.ok 1]).rab.cells ∧ cell6C.pm = 0 ∧ (mock [.ok 1]).env.reply = .ok 1 :=
  witness_UpdWithNothingPendingRewritesShadow

/-- V4's operations: the frame in the record is the flush of register 0x6C. -/
theorem witness_SiblingBitsKeepResetValue : cfgOk Cfg.test = true ∧ (mock [.ok 1]).env.trace = [] ∧
    (∀ i ∈ [Instr.setf 0x6C 0xF 0x3, .upd 0x6C], isShadowOp i = true) ∧
    (∃ x ∈ (runOps [Instr.setf 0x6C 0xF 0x3, .upd 0x6C]
      { State.construct Cfg.test with env := (mock [.ok 1]).env }).env.trace,
      decodeFrame x.sent = .wr 0x6C 0x10410153) := by decide

theorem witness_GetshReturnsShadowAndView : (afterH1 []).FileShape ∧
    ⟨0x10, 0, 0x00001F00, 0x00000A00⟩ ∈ (afterH1 []).rab.cells ∧ (0x10#7).setWidth 8 = 0x10#8 ∧
    shadowed (afterH1 []).cfg 0x7F = false :=
  ⟨afterH1_shape _, by decide, by decide, by decide⟩

theorem witness_EnableDrivesLine : (mockPins [.ok]).cfg.hasEnable = true ∧ (mockPins [.ok]).env.pinDraw = .ok ∧
    (mockPins [.fault]).cfg.hasEnable = true ∧ (mockPins [.fault]).env.pinDraw = .fault ∧
    (underCfg { Cfg.test with hasEnable := false } State.reset).cfg.hasEnable = false := by decide

theorem witness_DisableDrivesLine : (mockPins [.ok]).cfg.hasEnable = true ∧ (mockPins [.ok]).env.pinDraw = .ok ∧
    (mockPins [.fault]).cfg.hasEnable = true ∧ (mockPins [.fault]).env.pinDraw = .fault ∧
    (underCfg { Cfg.test with hasEnable := false } State.reset).cfg.hasEnable = false := by decide

theorem witness_AbsentLineRefusesBoth :
    (underCfg { Cfg.test with hasEnable := false } State.reset).cfg.hasEnable = false := by decide

theorem witness_ReservedCodesRefused : (⟨0xF, 1, 0x7F, 1, 1, 1⟩ : Command).op = 0xF ∧
    (⟨0x0, 1, 0x7F, 1, 1, 1⟩ : Command).op = 0x0 := by decide

theorem witness_ReservedCodesRefused_instr : Instr.reservedF = .reserved0 ∨ Instr.reservedF = .reservedC ∨
    Instr.reservedF = .reservedD ∨ Instr.reservedF = .reservedE ∨ Instr.reservedF = .reservedF := by decide

theorem witness_RdDatagramPresentsRegister : frameBytes 0x7F00000000 = bytesWith ((0x7F#7).setWidth 8) 0 ∧
    (onRefDev []).env.device = some (RefDev.initial Cfg.test) ∧ (mock []).env.device = none := by decide

theorem witness_WrDatagramStoresRegister : (onRefDev []).DeviceInv ∧ (mock []).DeviceInv ∧
    frameBytes 0xFFFFFFFFFF = bytesWith (0x80#8 ||| (0x7F#7).setWidth 8) 0xFFFFFFFF ∧
    (onRefDev []).env.device = some (RefDev.initial Cfg.test) ∧ (mock []).env.device = none :=
  ⟨onRefDev_device _, (by intro d hd; cases hd), by decide, by decide, by decide⟩

theorem witness_XchgLatchesStatusOrRaises : (mock [.ok 1]).env.reply = .ok 1 ∧
    (mock [.fault]).env.reply = .fault := by decide

theorem witness_ExchangeIsRecordedAndBound : (mock [.ok 1]).env.reply = .ok 1 ∧
    (∀ r : Frame, (mock [.fault]).env.reply ≠ .ok r) ∧ (∀ r : Frame, (mock [.silence]).env.reply ≠ .ok r) ∧
    (mock [.fault]).env.device = none ∧ (mock [.fault]).env.answers ≠ [] ∧
    (onRefDev [.ok 1]).env.device = some (RefDev.initial Cfg.test) ∧
    (onRefDev [.ok 1]).env.answers = .ok 1 :: [] := by
  refine ⟨by decide, ?_, ?_, by decide, by decide, by decide, by decide⟩
  · intro r h; cases h
  · intro r h; cases h

/-- An operation with two exchanges that ends with `OK`, and one with none. -/
theorem witness_OnlyAccessOperationsExchange : isHostOp (.rdreg 0) = true ∧
    exec (.rdreg 0) (mock [.ok 1, .ok 2]) = .next (execOr (.rdreg 0) (mock [.ok 1, .ok 2])) ∧
    (execOr (.rdreg 0) (mock [.ok 1, .ok 2])).results = { kind := .ok, data := 2 } :: (mock []).results ∧
    isHostOp .getst = true ∧ exchangeCount .getst = 0 :=
  ⟨by decide, rfl, by decide, by decide, by decide⟩

theorem witness_FaultEndsOperationAsBusError :
    exec (.rdreg 0) (mock [.ok 1, .fault]) = .next (execOr (.rdreg 0) (mock [.ok 1, .fault])) ∧
    (execOr (.rdreg 0) (mock [.ok 1, .fault])).results.head? = some { kind := .busError } := ⟨rfl, by decide⟩

/-- Each kind of error. -/
theorem witness_ErrorsLeaveShadowUntouched :
    exec (.upd 0x11) (mock []) = .next (execOr (.upd 0x11) (mock [])) ∧
    (execOr (.upd 0x11) (mock [])).results = { kind := .refused } :: (mock []).results ∧
    (execOr (.rdreg 0) (mock [.fault])).results = { kind := .busError } :: (mock []).results ∧
    (execOr .enable (mockPins [.fault])).results = { kind := .pinError } :: (mockPins []).results :=
  ⟨rfl, by decide, by decide, by decide⟩

/-- Each form: a plain and a shadowed register, a shadowed one under `bypass`, and a read's second exchange. -/
theorem witness_SilentExchangeHangsUntilReset : (mock [.silence]).FileShape ∧ (mock [.silence]).rst = false ∧
    (mock [.silence]).env.reply = .silence ∧
    ¬(shadowed (mock [.silence]).cfg (0xFF &&& 0x7F#8) = true ∧ (mock [.silence]).cfg.rawWrite = .refuse) ∧
    ¬(shadowed (mock [.silence]).cfg (0x6C &&& 0x7F#8) = true ∧ (mock [.silence]).cfg.rawWrite = .refuse) ∧
    (mockWith .bypass [.silence]).FileShape ∧
    ¬(shadowed (mockWith .bypass [.silence]).cfg (0x6C &&& 0x7F#8) = true ∧
      (mockWith .bypass [.silence]).cfg.rawWrite = .refuse) ∧
    shadowed (mock [.silence]).cfg 0x6C = true ∧ frameBytes 0x7F00000000 = [0xFF &&& 0x7F#8, 0, 0, 0, 0] ∧
    (mock [.ok 1, .silence]).env.reply = .ok 1 ∧
    ((mock [.ok 1, .silence]).env.exchange 0x7F00000000).reply = .silence :=
  ⟨mock_shape _, by decide, by decide, by decide, by decide, mockWith_shape _ _, by decide, by decide, by decide,
    by decide, by decide⟩

theorem witness_DeviceStoresOnlyAtAddress : (onRefDev [.ok 1]).FileShape ∧ (onRefDev [.ok 1]).DeviceInv ∧
    (onRefDev [.ok 1]).env.device = some (RefDev.initial Cfg.test) ∧ (onRefDev [.ok 1]).env.reply = .ok 0 ∧
    ¬(shadowed (onRefDev [.ok 1]).cfg (maskAddr 0xFF) = true ∧ (onRefDev [.ok 1]).cfg.rawWrite = .refuse) ∧
    cell6C ∈ (onRefDev [.ok 1]).rab.cells ∧ isHostOp .getst = true ∧ exchangeCount .getst = 0 ∧
    exec .getst (onRefDev [.ok 1]) = .next (execOr .getst (onRefDev [.ok 1])) :=
  ⟨onRefDev_shape _, onRefDev_device _, by decide, by decide, by decide, by decide, by decide, by decide, rfl⟩

/-- A shadow word that changes by a flush, one that changes by a raw write, and a patch that is recorded. -/
theorem witness_ShadowWrittenOnlyByOwnOperations : (afterH1 [.ok 1]).FileShape ∧
    exec (.upd 0x10) (afterH1 [.ok 1]) = .next (execOr (.upd 0x10) (afterH1 [.ok 1])) ∧
    ⟨0x10, 0, 0x00001F00, 0x00000A00⟩ ∈ (afterH1 [.ok 1]).rab.cells ∧
    ⟨0x10, 0x00000A00, 0, 0⟩ ∈ (execOr (.upd 0x10) (afterH1 [.ok 1])).rab.cells ∧
    ⟨0x10, 5, 0x00001F00, 0x00000A00⟩ ∈ (execOr (.wrreg 0x10 5) (afterH1 [.ok 1])).rab.cells ∧
    ⟨0x10, 0, 0x00001F1F, 0x00000A0A⟩ ∈ (execOr (.setf 0x10 0x1F 0x0A) (afterH1 [.ok 1])).rab.cells :=
  ⟨afterH1_shape _, rfl, by decide, by decide, by decide, by decide⟩

theorem witness_PastResultsNeverRead : exec .getst (mock []) = .next (execOr .getst (mock [])) := rfl

theorem witness_StrapsNeverWritten : step (State.reset.withFetchWord 8 0x8) = .next (execOr .getst State.reset) := rfl

/-- One that returns a result, and one that never does. -/
theorem witness_OneResultPerOperation : isHostOp (.upd 0x6C) = true ∧
    exec (.upd 0x6C) (mock [.ok 1]) = .next (execOr (.upd 0x6C) (mock [.ok 1])) ∧
    (execOr (.upd 0x6C) (mock [.ok 1])).waiting = false ∧
    (execOr (.upd 0x6C) (mock [.silence])).waiting = true := ⟨by decide, rfl, by decide, by decide⟩

/-- The machine with the flush of register 0x10 presented and answered, on the reference device. -/
def presented : State := { onRefDev [.ok 1] with
  rab := block 0 0x00001F00 0x00000A00 none, inputs := [.command ⟨0x7, 0, 0x10, 0, 0, 0⟩] }

theorem presented_step :
    step presented = .next (execOr (.upd 0x10) { presented with inputs := [] }) := rfl

theorem witness_StepKeepsFileShape : presented.FileShape ∧ ∃ t, step presented = .next t :=
  ⟨mock_shape [], _, presented_step⟩

theorem witness_StepKeepsPatchInvariant : presented.PatchInv ∧ ∃ t, step presented = .next t :=
  ⟨afterH1_patch [], _, presented_step⟩

theorem presented_shadow : presented.ShadowInv := by
  show ∀ c ∈ (block 0 0x00001F00 0x00000A00 none).cells, c.sh = shadowReset Cfg.test c.addr
  decide

/-- Under `update`; and under `bypass`, where the step is a flush. -/
theorem witness_ShadowEqualsLastConfirmedWrite : cfgOk Cfg.test = true ∧ presented.FileShape ∧
    presented.ShadowInv ∧ (∃ t, step presented = .next t) ∧ presented.cfg.rawWrite ≠ .bypass ∧
    ({ presented with cfg := cfgWith .bypass } : State).FileShape ∧
    ({ presented with cfg := cfgWith .bypass } : State).ShadowInv ∧
    (∀ (c : Command) (rest : List Input) (a : Byte) (v : Word),
      presented.inputs = .command c :: rest → decodeCommand c ≠ .wrreg a v) := by
  refine ⟨by decide, mock_shape [], presented_shadow, ⟨_, presented_step⟩, by decide, mockWith_shape .bypass [],
    presented_shadow, ?_⟩
  intro c rest a v h hd
  injection h with h _
  injection h with h
  subst h
  cases hd

theorem witness_StatusLatchHoldsLastStatus : presented.StatusInv ∧ (∃ t, step presented = .next t) ∧
    Instr.upd 0x10 ≠ .getst ∧ exec (.upd 0x10) presented = .next (execOr (.upd 0x10) presented) :=
  ⟨rfl, ⟨_, presented_step⟩, by decide, rfl⟩

/-- One that drives the line, and one that leaves it. -/
theorem witness_EnableLineWrittenNeverRead :
    exec .enable (mockPins [.ok]) = .next (execOr .enable (mockPins [.ok])) ∧
    (execOr .enable (mockPins [.ok])).rab.en ≠ (mockPins [.ok]).rab.en ∧
    exec .getst (mockPins []) = .next (execOr .getst (mockPins [])) := ⟨rfl, by decide, rfl⟩

theorem witness_StepKeepsDeviceCanonical : presented.DeviceInv ∧ ∃ t, step presented = .next t :=
  ⟨onRefDev_device [], _, presented_step⟩

/-- A machine without an enable line. -/
theorem witness_StepKeepsAbsentLineUndriven :
    ({ presented with cfg := { Cfg.test with hasEnable := false } } : State).EnableInv ∧
    ({ presented with cfg := { Cfg.test with hasEnable := false } } : State).cfg.hasEnable = false ∧
    ∃ t, step { presented with cfg := { Cfg.test with hasEnable := false } } = .next t :=
  ⟨fun _ => rfl, rfl, execOr (.upd 0x10)
    { presented with cfg := { Cfg.test with hasEnable := false }, inputs := [] }, rfl⟩

theorem witness_InvariantsHoldAtReset : cfgOk Cfg.test = true := by decide

/-- `rst` rising while an exchange has not answered, and released. -/
theorem witness_ResetTakesResetValues : cfgOk presented.cfg = true ∧
    ({ presented with inputs := [.rst true], waiting := true } : State).inputs = .rst true :: [] ∧
    ({ presented with inputs := [.rst false], rst := true } : State).inputs = .rst false :: [] ∧
    ({ presented with inputs := [.rst false], rst := true } : State).rst = true := by decide

/-- Members of `SHADOW_SET` and neighbours, one of eight bits. -/
theorem witness_ConstructionTakesResetValues : cfgOk Cfg.test = true ∧ shadowed Cfg.test 0x00 = true ∧
    shadowed Cfg.test 0x6C = true ∧ shadowed Cfg.test 0x6D = false ∧ shadowed Cfg.test 0xEC = false ∧
    ⟨0x6C, 0x10410150⟩ ∈ Cfg.test.shadow := by decide

/-- Held, released, and the invariant at a step that raises `rst`. -/
theorem witness_RstHoldsResetValues : cfgOk presented.cfg = true ∧
    ({ presented with rst := true } : State).rst = true ∧
    (∀ x ∈ ({ presented with rst := true } : State).inputs, ∀ level, x ≠ .rst level) ∧
    ({ presented with rst := true, inputs := [.rst false] } : State).inputs = .rst false :: [] ∧
    presented.RstInv ∧ (∃ t, step { presented with inputs := [.rst true] } = .next t ∧ t.rst = true) := by
  refine ⟨by decide, rfl, ?_, rfl, (fun h => absurd h (by decide)), _, rfl, rfl⟩
  intro x hx level he
  subst he
  exact absurd hx (by cases level <;> decide)

theorem witness_StepRunsPresentedInstruction : cfgOk presented.cfg = true ∧ presented.rst = false ∧
    presented.waiting = false ∧
    presented.inputs = .command ⟨0x7, 0, 0x10, 0, 0, 0⟩ :: [] ∧
    (Input.command ⟨0x7, 0, 0x10, 0, 0, 0⟩).instr? = some (.upd 0x10) := by decide

theorem witness_StepIdlesOrRefusesConfiguration : cfgOk State.reset.cfg = true ∧ State.reset.rst = false ∧
    State.reset.waiting = false ∧
    State.reset.inputs = [] ∧ cfgOk { Cfg.test with statusBitOtw := 8 } = false ∧
    cfgOk { Cfg.test with statusBitOtw := 0 } = false ∧ cfgOk { Cfg.test with statusBitOtw := 3 } = false := by decide

/-- Both sides of the equivalence: legal configurations at the ranges' ends, and each constraint broken. -/
theorem witness_LegalConfigurationMeetsConstraints :
    cfgOk { Cfg.test with fields := [⟨"top", 0x00, 31, 1, .ro⟩, ⟨"all", 0x00, 0, 32, .rw⟩] } = true ∧
    cfgOk { Cfg.test with statusBitOtw := 7 } = true ∧
    cfgOk { Cfg.test with statusBitDriverError := 0 } = false ∧
    cfgOk { Cfg.test with fields := [⟨"over", 0x00, 31, 2, .ro⟩] } = false ∧
    cfgOk { Cfg.test with fields := [⟨"none", 0x00, 0, 0, .ro⟩] } = false ∧
    cfgOk { Cfg.test with shadow := [⟨0x10, 0⟩, ⟨0x10, 1⟩] } = false := by decide

theorem witness_DecodeOfEncodeIsIdentity : (Instr.setf 0x7F 0xFFFFFFFF 0x80000001).wf = true := by decide

theorem witness_EveryFrameIsOneDatagram : (0x7FFFFFFFFF#40).getLsbD 39 = false ∧
    (0x8000000000#40).getLsbD 39 = true := by decide

theorem witness_UnreadOperandsIgnored :
    (⟨0x4, 1, 0x7F, 1, 2, 3⟩ : Command).op = (⟨0x4, 0, 0x7F, 9, 9, 9⟩ : Command).op ∧
    (⟨0x4, 1, 0x7F, 1, 2, 3⟩ : Command).a = (⟨0x4, 0, 0x7F, 9, 9, 9⟩ : Command).a ∧
    (⟨0x8, 1, 0x7F, 1, 2, 3⟩ : Command).op = (⟨0x8, 0, 0, 9, 9, 9⟩ : Command).op := by decide

theorem witness_SetterOperandsPlaceField : cfgOk Cfg.test = true ∧
    fieldRow? Cfg.test "mres" = some ⟨"mres", 0x6C, 24, 4, .rw⟩ ∧ shadowed Cfg.test ((0x6C#7).setWidth 8) = true := by
  decide

theorem witness_GetterExtractsField : cfgOk Cfg.test = true ∧
    fieldRow? Cfg.test "shaft" = some ⟨"shaft", 0x00, 4, 1, .rw⟩ := by decide

theorem witness_SetterThenViewShowsField : (mock []).FileShape ∧
    fieldRow? (mock []).cfg "toff" = some ⟨"toff", 0x6C, 0, 4, .rw⟩ ∧
    expandPseudo (mock []).cfg (.setfld "toff" 0x1F) = some (.operation (.setf 0x6C 0xF 0xF)) ∧
    cell6C ∈ (mock []).rab.cells ∧ cell6C.addr = 0x6C :=
  ⟨mock_shape _, by decide, by decide, by decide, by decide⟩

end Sys2Proof.Tests
end

/-! PROOFS. The block's own state (10_state.md): its values at reset (R25), the shadow against the record of confirmed writes (R16), the status latch against the record of responses (R19). -/

namespace Sys2Proof.Machine

/-! ## The block at reset -/

/-- A cell of the file at reset is a member of `SHADOW_SET` at its reset word with nothing pending (R25). -/
theorem Rab.mem_construct_cells {cfg : Cfg} {x : ShadowCell} (hx : x ∈ (Rab.construct cfg).cells) :
    ∃ e ∈ cfg.shadow, x = { addr := e.addr, sh := e.reset, pm := 0, pv := 0 } := by
  obtain ⟨e, he, rfl⟩ := List.mem_map.1 hx
  exact ⟨e, he, rfl⟩

theorem State.construct_fileShape {cfg : Cfg} (hc : cfgOk cfg = true) : (State.construct cfg).FileShape :=
  ⟨hc, by simp [State.construct, Rab.construct]⟩

/-- At reset the cell of a member of `SHADOW_SET` has the member's values (R25). -/
theorem State.construct_cell? {cfg : Cfg} (hc : cfgOk cfg = true) {k : Addr}
    (hk : shadowed cfg (k.setWidth 8) = true) :
    (State.construct cfg).rab.cell? (k.setWidth 8) =
      some { addr := k, sh := shadowReset cfg k, pm := 0, pv := 0 } := by
  obtain ⟨x, hx⟩ := (State.construct_fileShape hc).cell?_some hk
  obtain ⟨hmem, haddr⟩ := Rab.cell?_some hx
  obtain ⟨e, he, rfl⟩ := Rab.mem_construct_cells hmem
  obtain rfl : e.addr = k := setWidth_addr_injective haddr
  rw [hx, shadowReset_of_mem (cfgOk_distinct hc) he]

/-- Settles O58: the file at reset has one cell per member of `SHADOW_SET`, made of the member's values. -/
theorem constructionTakesResetValues : Obligations.ConstructionTakesResetValues := fun _ hc =>
  ⟨fun _ hk => State.construct_cell? hc hk, fun _ he => shadowReset_of_mem (cfgOk_distinct hc) he,
    fun _ hk => (State.construct_fileShape hc).cell?_none hk, rfl, rfl, rfl⟩

/-! ## The shadow and the record of confirmed writes (R16) -/

/-- No exchange made and the reset values in the file: the shadow is `SHADOW_RESET`. -/
theorem State.shadowInv_of_reset {s : State} (hc : cfgOk s.cfg = true) (hr : s.rab = Rab.construct s.cfg)
    (ht : s.env.trace = []) : s.ShadowInv := by
  intro x hx
  obtain ⟨e, he, rfl⟩ := Rab.mem_construct_cells (hr ▸ hx)
  simpa [ht, lastWritten] using (shadowReset_of_mem (cfgOk_distinct hc) he).symm

/-- An exchange that is no confirmed write of a register with a cell leaves the shadow what it should be. -/
theorem State.ShadowInv.exchange {s : State} (h : s.ShadowInv) {f : Frame}
    (hw : ∀ x ∈ s.rab.cells, lastWritten x.addr (s.exchange f).env.trace = lastWritten x.addr s.env.trace) :
    (s.exchange f).ShadowInv := fun x hx => by
  rw [hw x hx]; exact h x hx

theorem State.ShadowInv.exchange_read {s : State} (h : s.ShadowInv) (a : Byte) :
    (s.exchange (packFrame 0#1 a 0#32)).ShadowInv :=
  h.exchange fun x _ => lastWritten_read x.addr a _ _ _

theorem State.ShadowInv.exchange_failed {s : State} (h : s.ShadowInv) (f : Frame)
    (hr : ∀ r, s.env.reply ≠ .ok r) : (s.exchange f).ShadowInv :=
  h.exchange fun x _ => lastWritten_failed x.addr f _ _ hr

/-- A write of a register without a cell says nothing of any cell. -/
theorem State.ShadowInv.exchange_write_unshadowed {s : State} (h : s.ShadowInv) {a : Byte} (v : Word) {r : Frame}
    (hr : s.env.reply = .ok r) (hn : ∀ x ∈ s.rab.cells, x.addr.setWidth 8 ≠ maskAddr a) :
    (s.exchange (packFrame 1#1 a v)).ShadowInv :=
  h.exchange fun x hx => by
    rw [State.exchange_env, Env.exchange_trace, hr, lastWritten_write,
      if_neg fun ha => hn x hx ((eq_maskAddr_iff a x.addr).2 ha)]

/-- A confirmed write whose word the written register's cell takes: the shadow is the word last written. -/
theorem State.ShadowInv.confirmed_write {s : State} (h : s.ShadowInv) (a : Byte) {v : Word} {r : Frame}
    (hr : s.env.reply = .ok r) {f : ShadowCell → ShadowCell} (hf : ∀ c, (f c).addr = c.addr ∧ (f c).sh = v) :
    ((s.exchange (packFrame 1#1 a v)).updateCell (maskAddr a) f).ShadowInv := by
  intro y hy
  rw [State.updateCell_env, State.exchange_env, Env.exchange_trace, hr, lastWritten_write]
  rcases Rab.mem_updateCell hy with ⟨x, _, ha, rfl⟩ | ⟨hm, ha⟩
  · obtain ⟨hfa, hfs⟩ := hf x
    rw [hfa, hfs, if_pos ((eq_maskAddr_iff a x.addr).1 ha)]
    rfl
  · rw [if_neg fun hk => ha ((eq_maskAddr_iff a y.addr).2 hk)]
    exact h y hm

/-- `Xchg` keeps the shadow invariant when what follows a response does. -/
theorem State.ShadowInv.xchg {s : State} (h : s.ShadowInv) (c : Frame) {go : Frame → State → State}
    (hgo : ∀ r, s.env.reply = .ok r → (go r (s.exchange c)).ShadowInv) : (s.xchg c go).ShadowInv := by
  rcases State.xchg_cases c s go with ⟨r, hr, e⟩ | ⟨hr, e⟩ | ⟨hr, e⟩ <;> rw [e]
  · exact hgo r hr
  · exact h.exchange_failed c (by simp [hr])
  · exact h.exchange_failed c (by simp [hr])

theorem State.ShadowInv.drivePin {s : State} (h : s.ShadowInv) (on : Bool) : (s.drivePin on).ShadowInv := by
  rcases State.drivePin_cases on s with ⟨_, _, e⟩ | ⟨_, _, e⟩ | ⟨_, e⟩ <;> rw [e] <;> exact h

/-- A recorded field change leaves every shadow word (R15, R101). -/
theorem State.ShadowInv.patch {s : State} (h : s.ShadowInv) (k : Byte) (m b : Word) :
    (s.updateCell k (ShadowCell.patch m b)).ShadowInv := by
  intro y hy
  rcases Rab.mem_updateCell hy with ⟨x, hx, _, rfl⟩ | ⟨hm, _⟩
  · exact h x hx
  · exact h y hm

theorem State.ShadowInv.rdreg {s : State} (h : s.ShadowInv) (a : Byte) :
    (execOr (.rdreg a) s).ShadowInv :=
  h.xchg _ fun _ _ => (h.exchange_read a).xchg _ fun _ _ => (h.exchange_read a).exchange_read a

theorem State.ShadowInv.upd {s : State} (h : s.ShadowInv) (k : Byte) : (execOr (.upd k) s).ShadowInv := by
  rcases execOr_upd k s with ⟨_, e⟩ | ⟨x, hx, e⟩ <;> rw [e]
  · exact h
  · obtain ⟨_, hk⟩ := Rab.cell?_some hx
    have hmask : k = maskAddr k := by rw [← hk, eq_maskAddr_iff]; simp
    refine h.xchg _ fun r hr => ?_
    have := h.confirmed_write k hr (f := ShadowCell.commit x.merged) fun _ => ⟨rfl, rfl⟩
    rwa [← hmask] at this

/-- `WRREG` keeps the invariant unless it is a confirmed write past the shadow: under `bypass`, to a register with a cell. -/
theorem State.ShadowInv.wrreg {s : State} (h : s.ShadowInv) (a : Byte) (v : Word)
    (hb : s.cfg.rawWrite = .bypass → ∀ r, s.env.reply = .ok r →
      ∀ x ∈ s.rab.cells, x.addr.setWidth 8 ≠ maskAddr a) :
    (execOr (.wrreg a v) s).ShadowInv := by
  rcases execOr_wrreg a v s with ⟨_, _, _, e⟩ | ⟨hn, e⟩ <;> rw [e]
  · exact h
  refine h.xchg _ fun r hr => ?_
  cases hp : s.cfg.rawWrite with
  | update => exact h.confirmed_write a hr fun _ => ⟨rfl, rfl⟩
  | bypass => exact h.exchange_write_unshadowed v hr (hb hp r hr)
  | refuse =>
    have hnone : s.rab.cell? (maskAddr a) = none :=
      Option.eq_none_iff_forall_ne_some.2 fun c hc => hn c hc hp
    exact h.exchange_write_unshadowed v hr (Rab.cell?_none hnone)

/-- Every instruction keeps the shadow invariant, but for a confirmed raw write past the shadow (R16). -/
theorem State.ShadowInv.execOr {s : State} (h : s.ShadowInv) (i : Instr)
    (hb : ∀ a v, i = .wrreg a v → s.cfg.rawWrite = .bypass → ∀ r, s.env.reply = .ok r →
      ∀ x ∈ s.rab.cells, x.addr.setWidth 8 ≠ maskAddr a) :
    (execOr i s).ShadowInv := by
  cases i
  case rdreg a => exact h.rdreg a
  case wrreg a v => exact h.wrreg a v (hb a v rfl)
  case upd k => exact h.upd k
  case setf k m b =>
    rcases execOr_setf k m b s with ⟨_, e⟩ | ⟨_, _, e⟩ <;> rw [e]
    · exact h
    · exact h.patch k m b
  case getsh k => rcases execOr_getsh k s with ⟨_, e⟩ | ⟨_, _, e⟩ <;> rw [e] <;> exact h
  case enable => exact h.drivePin true
  case disable => exact h.drivePin false
  -- the operations left make no exchange and touch neither the file nor the record
  all_goals exact h

/-- A `WRREG` is presented on the command port: no frame on the wire decodes to one (R60). -/
theorem Input.eq_command_of_wrreg {x : Input} {a : Byte} {v : Word} (h : x.instr? = some (.wrreg a v)) :
    ∃ c, x = .command c ∧ decodeCommand c = .wrreg a v := by
  cases x with
  | command c => exact ⟨c, rfl, Option.some.inj h⟩
  | frame f =>
    have hf : decodeFrame f = .wrreg a v := Option.some.inj h
    unfold decodeFrame at hf
    split at hf <;> cases hf
  | rst level => cases h

theorem State.resetBlock_shadowInv {s : State} (hc : cfgOk s.cfg = true) : s.resetBlock.ShadowInv :=
  State.shadowInv_of_reset hc rfl rfl

theorem State.ShadowInv.driveRst {s : State} (h : s.ShadowInv) (hc : cfgOk s.cfg = true) (level : Bool) :
    (s.driveRst level).ShadowInv := by
  unfold State.driveRst
  split
  · exact State.resetBlock_shadowInv hc
  · exact h

/-- Settles O40: reset gives it, and of the instructions only a confirmed write past the shadow can break it. -/
theorem shadowEqualsLastConfirmedWrite : Obligations.ShadowEqualsLastConfirmedWrite := by
  refine ⟨fun cfg hc => State.shadowInv_of_reset hc rfl rfl, fun s t hshape h hstep hbypass => ?_⟩
  obtain ⟨hc, ⟨_, _, rfl⟩ | ⟨level, rest, _, rfl⟩ | ⟨_, _, rfl⟩ | ⟨x, i, rest, hin, _, hi, rfl⟩⟩ :=
    step_cases hstep
  · exact h
  · exact State.ShadowInv.driveRst (s := { s with inputs := rest }) h hc level
  · exact State.resetBlock_shadowInv hc
  · refine State.ShadowInv.execOr (s := { s with inputs := rest }) h i ?_
    rintro a v rfl hp r hr y hy ha
    obtain ⟨c, rfl, hdec⟩ := Input.eq_command_of_wrreg hi
    have hout : shadowed s.cfg (maskAddr a) = false := hbypass hp c rest a v r hin hdec hr
    exact Rab.cell?_none (hshape.cell?_none hout) y hy ha

/-! ## The status latch and the record of responses (R19) -/

/-- The status byte an exchange latches is the one the record then gives as the last (R20). -/
theorem latchStatus_eq_lastStatus (f : Frame) (ans : Answer) (o : Option Frame) (tr : List ExchangeRecord) :
    latchStatus ans (lastStatus tr) = lastStatus ({ sent := f, answer := ans, owner := o } :: tr) := by
  cases ans <;> rfl

theorem State.StatusInv.exchange {s : State} (h : s.StatusInv) (f : Frame) : (s.exchange f).StatusInv :=
  (congrArg (latchStatus s.env.reply) h).trans (latchStatus_eq_lastStatus f _ _ _)

/-- Every instruction keeps the status invariant: only an exchange touches the latch or the record. -/
theorem State.StatusInv.execOr {s : State} (h : s.StatusInv) (i : Instr) : (execOr i s).StatusInv :=
  exec_keeps State.StatusInv
    (respond := fun _ _ hs => hs) (hang := fun _ hs => hs) (exchange := fun _ f hs => hs.exchange f)
    (take := fun _ _ _ hs => hs) (drive := fun _ _ hs _ => hs) (pinWrite := fun _ hs => hs)
    (patch := fun _ _ _ _ hs => hs) (overwrite := fun _ _ _ _ hs _ _ => hs.exchange _)
    (commit := fun _ _ _ _ hs _ _ => hs.exchange _) i s h

/-! ## Only `GETST` reads the status latch (R19) -/

/-- The state with something else in the status latch. -/
def State.withStatus (st : Option Byte) (s : State) : State := { s with rab := { s.rab with st := st } }

@[simp] theorem State.withStatus_cfg (st : Option Byte) (s : State) : (s.withStatus st).cfg = s.cfg := rfl

@[simp] theorem State.withStatus_env (st : Option Byte) (s : State) : (s.withStatus st).env = s.env := rfl

@[simp] theorem State.withStatus_cell? (st : Option Byte) (s : State) (k : Byte) :
    (s.withStatus st).rab.cell? k = s.rab.cell? k := rfl

/-- Two states that differ in the status latch at most. -/
def State.SameButStatus (s u : State) : Prop := ∃ st, u = s.withStatus st

theorem State.SameButStatus.respond {s u : State} (h : s.SameButStatus u) (r : Result) :
    (s.respond r).SameButStatus (u.respond r) := by
  obtain ⟨st, rfl⟩ := h; exact ⟨st, rfl⟩

theorem State.SameButStatus.updateCell {s u : State} (h : s.SameButStatus u) (k : Byte)
    (f : ShadowCell → ShadowCell) : (s.updateCell k f).SameButStatus (u.updateCell k f) := by
  obtain ⟨st, rfl⟩ := h; exact ⟨st, rfl⟩

theorem State.SameButStatus.exchange {s u : State} (h : s.SameButStatus u) (c : Frame) :
    (s.exchange c).SameButStatus (u.exchange c) := by
  obtain ⟨st, rfl⟩ := h; exact ⟨latchStatus s.env.reply st, rfl⟩

theorem State.SameButStatus.hang {s u : State} (h : s.SameButStatus u) : s.hang.SameButStatus u.hang := by
  obtain ⟨st, rfl⟩ := h; exact ⟨st, rfl⟩

/-- `Xchg` makes the same exchange whatever the latch holds, so what follows decides. -/
theorem State.SameButStatus.xchg {s u : State} (h : s.SameButStatus u) (c : Frame)
    {go : Frame → State → State} (hgo : ∀ r s' u', s'.SameButStatus u' → (go r s').SameButStatus (go r u')) :
    (s.xchg c go).SameButStatus (u.xchg c go) := by
  have henv : u.env = s.env := by obtain ⟨st, rfl⟩ := h; exact s.withStatus_env st
  rcases State.xchg_cases c s go with ⟨r, hr, e⟩ | ⟨hr, e⟩ | ⟨hr, e⟩ <;> rw [e]
  · rw [State.xchg_ok go (henv ▸ hr)]; exact hgo r _ _ (h.exchange c)
  · rw [State.xchg_fault go (henv ▸ hr)]; exact (h.exchange c).respond _
  · rw [State.xchg_silence go (henv ▸ hr)]; exact (h.exchange c).hang

theorem State.SameButStatus.drivePin {s u : State} (h : s.SameButStatus u) (on : Bool) :
    (s.drivePin on).SameButStatus (u.drivePin on) := by
  obtain ⟨st, rfl⟩ := h
  refine ⟨st, ?_⟩
  rcases State.drivePin_cases on s with ⟨he, hp, e⟩ | ⟨he, hp, e⟩ | ⟨he, e⟩ <;> rw [e]
  · simp only [State.drivePin, State.withStatus_cfg, State.withStatus_env, he, hp, if_true]; rfl
  · simp only [State.drivePin, State.withStatus_cfg, State.withStatus_env, he, hp, if_true]; rfl
  · exact if_neg (by simp [he])

theorem State.SameButStatus.wrreg {s u : State} (h : s.SameButStatus u) (a : Byte) (v : Word) :
    (Machine.execOr (.wrreg a v) s).SameButStatus (Machine.execOr (.wrreg a v) u) := by
  obtain ⟨st, rfl⟩ := h
  rcases execOr_wrreg a v s with ⟨c, hc, hp, e⟩ | ⟨hn, e⟩ <;>
    rcases execOr_wrreg a v (s.withStatus st) with ⟨c', hc', hp', e'⟩ | ⟨hn', e'⟩
  · rw [e, e']; exact State.SameButStatus.respond ⟨st, rfl⟩ _
  · exact absurd hp (hn' c hc)
  · exact absurd hp' (hn c' hc')
  · rw [e, e']
    refine State.SameButStatus.xchg ⟨st, rfl⟩ _ fun r s' u' hsu => State.SameButStatus.respond ?_ _
    show State.SameButStatus _ (if s.cfg.rawWrite = .update then _ else u')
    split
    · exact hsu.updateCell _ _
    · exact hsu

/-- Every instruction but `GETST` does the same whatever the latch holds (R19). -/
theorem State.SameButStatus.execOr {s u : State} (h : s.SameButStatus u) {i : Instr} (hi : i ≠ .getst) :
    (execOr i s).SameButStatus (execOr i u) := by
  have hcell : ∀ k, u.rab.cell? k = s.rab.cell? k := by
    obtain ⟨st, rfl⟩ := h; exact s.withStatus_cell? st
  have hresp : ∀ r, (s.respond r).SameButStatus (u.respond r) := h.respond
  cases i
  case getst => exact absurd rfl hi
  case rd a v => obtain ⟨st, rfl⟩ := h; exact ⟨st, rfl⟩
  case wr a v => obtain ⟨st, rfl⟩ := h; exact ⟨st, rfl⟩
  case stdec sb => obtain ⟨st, rfl⟩ := h; exact ⟨st, rfl⟩
  case rdreg a =>
    simp only [Machine.execOr, exec, execRdreg]
    exact h.xchg _ fun _ _ _ h1 => h1.xchg _ fun _ _ _ h2 => h2.respond _
  case wrreg a v => exact h.wrreg a v
  case enable => exact h.drivePin true
  case disable => exact h.drivePin false
  case setf k m b =>
    simp only [Machine.execOr, exec, execSetf, hcell]
    cases s.rab.cell? k with
    | none => exact hresp _
    | some c => exact (h.updateCell k _).respond _
  case upd k =>
    simp only [Machine.execOr, exec, execUpd, hcell]
    cases s.rab.cell? k with
    | none => exact hresp _
    | some c => exact h.xchg _ fun _ _ _ h1 => (h1.updateCell k _).respond _
  case getsh k =>
    simp only [Machine.execOr, exec, execGetsh, hcell]
    cases s.rab.cell? k with
    | none => exact hresp _
    | some c => exact hresp _
  -- the operations left return a result that neither the latch nor the file decides
  all_goals exact hresp _

/-- Settles O41: an exchange latches what it records, and no instruction but `GETST` looks at the latch. -/
theorem statusLatchHoldsLastStatus : Obligations.StatusLatchHoldsLastStatus := by
  refine ⟨fun _ => rfl, fun s t h hstep => ?_, fun i s t st hi ht => ?_⟩
  · exact step_keeps State.StatusInv hstep h (reset := fun _ _ _ => rfl) (rst := fun _ _ hs => hs)
      (inputs := fun _ _ hs => hs) (exec := fun i _ hs => hs.execOr i)
  · obtain rfl := execOr_eq ht
    obtain ⟨st', hu⟩ := State.SameButStatus.execOr ⟨st, rfl⟩ hi
    exact ⟨_, exec_next i (s.withStatus st), by rw [hu]; rfl⟩

end Sys2Proof.Machine

/-! PROOFS. The host command encoding (30_encoding.md): the operation each select code stands for (R66, R68), the operands it reads (R67), the operands of a named setter (R69) and the value of a getter (R70). -/

namespace Sys2Proof

/-! ## The table of R66 and R68: one equation per operation code -/

theorem decodeCommand_reserved0 {c : Command} (h : c.op = 0x0) : decodeCommand c = .reserved0 := by
  simp [decodeCommand, h]

theorem decodeCommand_enc {c : Command} (h : c.op = 0x1) :
    decodeCommand c = .enc c.dir (c.a.setWidth 8) c.wdata := by
  simp [decodeCommand, h]

theorem decodeCommand_dec {c : Command} (h : c.op = 0x2) : decodeCommand c = .dec c.fin := by
  simp [decodeCommand, h]

theorem decodeCommand_stdec {c : Command} (h : c.op = 0x3) :
    decodeCommand c = .stdec (c.wdata.extractLsb' 0 8) := by
  simp [decodeCommand, h]

theorem decodeCommand_rdreg {c : Command} (h : c.op = 0x4) : decodeCommand c = .rdreg (c.a.setWidth 8) := by
  simp [decodeCommand, h]

theorem decodeCommand_wrreg {c : Command} (h : c.op = 0x5) :
    decodeCommand c = .wrreg (c.a.setWidth 8) c.wdata := by
  simp [decodeCommand, h]

theorem decodeCommand_setf {c : Command} (h : c.op = 0x6) :
    decodeCommand c = .setf (c.a.setWidth 8) c.wmask c.wdata := by
  simp [decodeCommand, h]

theorem decodeCommand_upd {c : Command} (h : c.op = 0x7) : decodeCommand c = .upd (c.a.setWidth 8) := by
  simp [decodeCommand, h]

theorem decodeCommand_getst {c : Command} (h : c.op = 0x8) : decodeCommand c = .getst := by
  simp [decodeCommand, h]

theorem decodeCommand_getsh {c : Command} (h : c.op = 0x9) : decodeCommand c = .getsh (c.a.setWidth 8) := by
  simp [decodeCommand, h]

theorem decodeCommand_enable {c : Command} (h : c.op = 0xA) : decodeCommand c = .enable := by
  simp [decodeCommand, h]

theorem decodeCommand_disable {c : Command} (h : c.op = 0xB) : decodeCommand c = .disable := by
  simp [decodeCommand, h]

theorem decodeCommand_reservedC {c : Command} (h : c.op = 0xC) : decodeCommand c = .reservedC := by
  simp [decodeCommand, h]

theorem decodeCommand_reservedD {c : Command} (h : c.op = 0xD) : decodeCommand c = .reservedD := by
  simp [decodeCommand, h]

theorem decodeCommand_reservedE {c : Command} (h : c.op = 0xE) : decodeCommand c = .reservedE := by
  simp [decodeCommand, h]

theorem decodeCommand_reservedF {c : Command} (h : c.op = 0xF) : decodeCommand c = .reservedF := by
  simp [decodeCommand, h]

/-- A select code is one of those that read operands (R66), or its operation reads none. -/
theorem opCode_cases (op : BitVec 4) :
    op = 0x1 ∨ op = 0x2 ∨ op = 0x3 ∨ op = 0x4 ∨ op = 0x5 ∨ op = 0x6 ∨ op = 0x7 ∨ op = 0x9 ∨
    op = 0x0 ∨ op = 0x8 ∨ op = 0xA ∨ op = 0xB ∨ op = 0xC ∨ op = 0xD ∨ op = 0xE ∨ op = 0xF := by
  revert op; decide

/-- Settles O52: by the equation of each operation code, which names only the operands R66 lists as read. -/
theorem unreadOperandsIgnored : Obligations.UnreadOperandsIgnored := by
  intro c d hop henc hdec hstdec haddr hwrreg hsetf
  rcases opCode_cases c.op with h | h | h | h | h | h | h | h | h | h | h | h | h | h | h | h <;>
    have h' := hop.symm.trans h
  · obtain ⟨hdir, ha, hv⟩ := henc h
    rw [decodeCommand_enc h, decodeCommand_enc h', hdir, ha, hv]
  · rw [decodeCommand_dec h, decodeCommand_dec h', hdec h]
  · rw [decodeCommand_stdec h, decodeCommand_stdec h', hstdec h]
  · rw [decodeCommand_rdreg h, decodeCommand_rdreg h', haddr (.inl h)]
  · obtain ⟨ha, hv⟩ := hwrreg h
    rw [decodeCommand_wrreg h, decodeCommand_wrreg h', ha, hv]
  · obtain ⟨ha, hm, hb⟩ := hsetf h
    rw [decodeCommand_setf h, decodeCommand_setf h', ha, hm, hb]
  · rw [decodeCommand_upd h, decodeCommand_upd h', haddr (.inr (.inl h))]
  · rw [decodeCommand_getsh h, decodeCommand_getsh h', haddr (.inr (.inr h))]
  -- the codes left read no operand
  · rw [decodeCommand_reserved0 h, decodeCommand_reserved0 h']
  · rw [decodeCommand_getst h, decodeCommand_getst h']
  · rw [decodeCommand_enable h, decodeCommand_enable h']
  · rw [decodeCommand_disable h, decodeCommand_disable h']
  · rw [decodeCommand_reservedC h, decodeCommand_reservedC h']
  · rw [decodeCommand_reservedD h, decodeCommand_reservedD h']
  · rw [decodeCommand_reservedE h, decodeCommand_reservedE h']
  · rw [decodeCommand_reservedF h, decodeCommand_reservedF h']

end Sys2Proof

namespace Sys2Proof.Machine

/-! ## The reserved operation codes (R68) -/

/-- A reserved instruction takes the shared exception `REFUSED` and does nothing else. -/
theorem exec_reserved {i : Instr}
    (hi : i = .reserved0 ∨ i = .reservedC ∨ i = .reservedD ∨ i = .reservedE ∨ i = .reservedF) (s : State) :
    exec i s = .next (s.raise .refused) := by
  rcases hi with rfl | rfl | rfl | rfl | rfl <;> rfl

/-- Settles O24: the five codes select the reserved instructions, and each of these raises `REFUSED`. -/
theorem reservedCodesRefused : Obligations.ReservedCodesRefused :=
  ⟨fun s _ hi => (exec_reserved hi s).trans (congrArg _ (s.raise_eq .refused)),
    fun _ => ⟨decodeCommand_reserved0, decodeCommand_reservedC, decodeCommand_reservedD,
      decodeCommand_reservedE, decodeCommand_reservedF⟩⟩

/-! ## Named setters and getters (R69, R70) -/

/-- The named setter of an `rw` field of a shadowed register is the `SETF` of the field's mask and bits (R69, R72). -/
theorem expandPseudo_setfld {cfg : Cfg} {name : String} {row : FieldRow} (hrow : fieldRow? cfg name = some row)
    (hrw : row.access = .rw) (hk : shadowed cfg (row.addr.setWidth 8) = true) (val : Nat) :
    expandPseudo cfg (.setfld name val) = some (.operation (.setf (row.addr.setWidth 8)
      (fieldMask row.lo row.width) (fieldBits row.lo row.width val))) := by
  simp [expandPseudo, expandSetter, hrow, hrw, hk]

/-- The getter of a field gives the field's value in the word (R70, R72). -/
theorem expandPseudo_getfld {cfg : Cfg} {name : String} {row : FieldRow} (hrow : fieldRow? cfg name = some row)
    (v : Word) : expandPseudo cfg (.getfld name v) = some (.value (fieldGet row.lo row.width v)) := by
  simp [expandPseudo, hrow]

/-- A row found under a legal configuration lies within the word. -/
theorem fieldRow?_le {cfg : Cfg} {name : String} {row : FieldRow} (hc : cfgOk cfg = true)
    (hrow : fieldRow? cfg name = some row) : row.lo + row.width ≤ 32 := by
  have hok := fieldRow?_ok hc hrow
  simp only [fieldRowOk, Bool.and_eq_true, decide_eq_true_eq] at hok
  exact hok.2

/-- An extracted field is an unsigned integer of its width: the mask bounds it. -/
theorem fieldGet_lt (lo w : Nat) (v : Word) : (fieldGet lo w v).toNat < 2 ^ w := by
  rw [fieldGet, BitVec.toNat_and, BitVec.toNat_ofNat]
  refine Nat.and_lt_two_pow _ ((Nat.mod_le _ _).trans_lt ?_)
  have := Nat.two_pow_pos w
  omega

/-- A word of one bit is 1 exactly when its bit 0 is set. -/
theorem beq_one_of_lt_two {x : Word} (h : x.toNat < 2) : (x == 1#32) = x.getLsbD 0 := by
  obtain rfl | rfl : x = 0#32 ∨ x = 1#32 := by bv_omega
  · rfl
  · rfl

/-- A one-bit field read as a Boolean is its bit (R70). -/
theorem fieldFlag_eq {lo : Nat} (h : lo + 1 ≤ 32) (v : Word) : fieldFlag lo v = v.getLsbD lo := by
  rw [fieldFlag, beq_one_of_lt_two (fieldGet_lt lo 1 v), fieldGet_getLsbD h]
  simp

/-- Settles O54: bit by bit, from the bits of a field's mask and of its new value. -/
theorem setterOperandsPlaceField : Obligations.SetterOperandsPlaceField :=
  fun _ _ val row _ hrow hrw hk => ⟨fieldMask row.lo row.width, fieldBits row.lo row.width val,
    expandPseudo_setfld hrow hrw hk val, fun _ hi => fieldMask_getLsbD hi, fun _ hi => fieldBits_getLsbD hi⟩

/-- Settles O55: bit by bit, from the bits and the bound of an extracted field. -/
theorem getterExtractsField : Obligations.GetterExtractsField := by
  intro cfg name v row hc hrow
  have hle := fieldRow?_le hc hrow
  refine ⟨fieldGet row.lo row.width v, expandPseudo_getfld hrow v, fieldGet_lt _ _ v, fun i hi => ?_, fun hw => ?_⟩
  · rw [fieldGet_getLsbD hle, decide_eq_true hi, Bool.true_and]
  · exact fieldFlag_eq (hw ▸ hle) v

end Sys2Proof.Machine

/-! PROOFS. The Frame Codec (40_frame_codec.md): the assembled frame as direction, address and value (R80), the value of a frame as its four bytes, big-endian (R83). -/

namespace Sys2Proof.Machine

/-! ## `ENC` -/

/-- Byte 0 of a command frame is its direction bit and the low 7 bits of the address (R63). -/
theorem commandByte_eq_append (w : Bit) (a : Byte) :
    (w.setWidth 8 <<< 7) ||| maskAddr a = w ++ a.setWidth 7 := by
  revert w a; decide

/-- An assembled frame is the direction, the low 7 bits of the address and the value (R63). -/
theorem packFrame_eq_append (w : Bit) (a : Byte) (v : Word) : packFrame w a v = w ++ a.setWidth 7 ++ v :=
  congrArg (joinFrame · v) (commandByte_eq_append w a)

/-- `ENC` drives the assembled frame on the result port and does nothing else (R80). -/
theorem exec_enc (dir : Bit) (a : Byte) (v : Word) (s : State) :
    exec (.enc dir a v) s = .next (s.respond { kind := .ok, frame := packFrame dir a v }) := rfl

/-- Settles O1: the frame is the one the block assembles for an exchange. -/
theorem encPacksFrame : Obligations.EncPacksFrame := fun dir a v s =>
  ⟨packFrame dir a v, exec_enc dir a v s, packFrame_eq_append dir a v, frameBytes_joinFrame _ v⟩

/-! ## `DEC` -/

/-- The byte of a frame at bit n, put back at bit n of a word, has the frame's bits n to n + 7 and no others. -/
theorem getLsbD_byte_shiftLeft (f : Frame) (n : Nat) {i : Nat} (hi : i < 32) :
    ((f.extractLsb' n 8).setWidth 32 <<< n).getLsbD i = (decide (n ≤ i ∧ i < n + 8) && f.getLsbD i) := by
  rw [BitVec.getLsbD_shiftLeft, BitVec.getLsbD_setWidth, BitVec.getLsbD_extractLsb']
  by_cases hn : n ≤ i
  · have hlt : i - n < 8 ↔ i < n + 8 := by omega
    simp [hi, hn, hlt, Nat.add_sub_cancel' hn, (by omega : i - n < 32)]
  · simp [hn, Nat.lt_of_not_le hn]

/-- The value of a frame is its bytes 1 to 4, big-endian (R38, R64). -/
theorem frameData_eq_bytes (f : Frame) :
    frameData f = ((f.extractLsb' 24 8).setWidth 32 <<< 24) ||| ((f.extractLsb' 16 8).setWidth 32 <<< 16) |||
      ((f.extractLsb' 8 8).setWidth 32 <<< 8) ||| (f.extractLsb' 0 8).setWidth 32 := by
  apply BitVec.eq_of_getLsbD_eq
  intro i hi
  have hlast := getLsbD_byte_shiftLeft f 0 hi
  rw [BitVec.shiftLeft_zero] at hlast
  have hdata : (frameData f).getLsbD i = f.getLsbD i := by simp [frameData, hi]
  simp only [BitVec.getLsbD_or, getLsbD_byte_shiftLeft f _ hi, hlast, hdata]
  cases f.getLsbD i with
  | false => simp only [Bool.and_false, Bool.or_false]
  | true =>
    -- every bit of the word lies in one of the four bytes
    simp only [Bool.and_true, Bool.true_eq, Bool.or_eq_true, decide_eq_true_eq]
    omega

/-- `DEC` drives byte 0 and the value on the result port and does nothing else (R83). -/
theorem exec_dec (f : Frame) (s : State) :
    exec (.dec f) s = .next (s.respond { kind := .ok, status := frameStatus f, data := frameData f }) := rfl

/-- Settles O2: the status and the value are the ones a response frame is split into. -/
theorem decSplitsFrame : Obligations.DecSplitsFrame := fun f s =>
  ⟨frameStatus f, frameData f, exec_dec f s, rfl, rfl, frameData_eq_bytes f⟩

end Sys2Proof.Machine

/-! PROOFS. The Shadow Register Store (42_shadow_store.md): what `SETF`, `UPD` and `GETSH` do to the cell their index names (R101, R105, R107, R109), and that each is refused where there is none. -/

namespace Sys2Proof.Machine

/-! ## The cell an index names -/

/-- A register address has its low 7 bits only, so the mask leaves it as it is (R37). -/
theorem maskAddr_setWidth (a : Addr) : maskAddr (a.setWidth 8) = a.setWidth 8 :=
  ((eq_maskAddr_iff _ a).2 (by simp)).symm

/-- An operation of the shadow store is refused where its index names no cell, and does nothing else. -/
theorem exec_refused_of_unshadowed {i : Instr} {k : Byte} {s : State} (hs : s.FileShape)
    (hi : (∃ m b, i = .setf k m b) ∨ i = .upd k ∨ i = .getsh k) (hk : shadowed s.cfg k = false) :
    exec i s = .next { s with results := { kind := .refused } :: s.results } := by
  have hcell := hs.cell?_none hk
  have hraise : execOr i s = s.raise .refused := by
    rcases hi with ⟨m, b, rfl⟩ | rfl | rfl
    · exact ((execOr_setf k m b s).resolve_right (by simp [hcell])).2
    · exact ((execOr_upd k s).resolve_right (by simp [hcell])).2
    · exact ((execOr_getsh k s).resolve_right (by simp [hcell])).2
  rw [exec_next, hraise, State.raise_eq]

/-! ## `SETF` -/

/-- `SETF` on a register with a cell patches that cell and answers `OK` (R101). -/
theorem exec_setf_of_cell? {k : Byte} {s : State} {x : ShadowCell} (h : s.rab.cell? k = some x) (m b : Word) :
    exec (.setf k m b) s = .next ((s.updateCell k (ShadowCell.patch m b)).respond { kind := .ok }) := by
  obtain ⟨_, _, e⟩ := (execOr_setf k m b s).resolve_left (by simp [h])
  rw [exec_next, e]

/-- Settles O14: the change of the one cell is the patch of R101. -/
theorem setfRecordsPatch : Obligations.SetfRecordsPatch := by
  refine fun k m b s hs => ⟨fun hk => ?_, exec_refused_of_unshadowed hs (.inl ⟨m, b, rfl⟩)⟩
  obtain ⟨x, hx⟩ := hs.cell?_some hk
  rw [exec_setf_of_cell? hx, State.updateCell, Rab.updateCell_eq]
  rfl

/-! ## `UPD` -/

/-- `UPD` on a register with a cell is one exchange of the merged word, committed after a response (R105). -/
theorem exec_upd_of_cell? {k : Byte} {s : State} {x : ShadowCell} (h : s.rab.cell? k = some x) :
    exec (.upd k) s = .next (s.xchg (packFrame 1#1 k x.merged) fun r t =>
      (t.updateCell k (ShadowCell.commit x.merged)).respond (dataPacket r)) := by
  obtain ⟨y, hy, e⟩ := (execOr_upd k s).resolve_left (by simp [h])
  obtain rfl : x = y := Option.some.inj (h.symm.trans hy)
  rw [exec_next, e]

/-- The frame of a shadowed register's write is fixed by its bytes; byte 0 is the register's address with bit 7 set (R60). -/
theorem eq_packFrame_write {c : Frame} {a : Addr} {v : Word}
    (hc : frameBytes c = bytesWith (0x80#8 ||| a.setWidth 8) v) : c = packFrame 1#1 (a.setWidth 8) v := by
  refine packFrame_of_bytes ?_ hc
  rw [maskAddr_setWidth]
  rfl

/-- A confirmed `UPD` commits the merged word, latches the status and returns the DataPacket (R105). -/
theorem exec_upd_ok {k : Byte} {s : State} {x : ShadowCell} {r : Frame} (h : s.rab.cell? k = some x)
    (hr : s.env.reply = .ok r) :
    exec (.upd k) s = .next { s with
      rab := { s.rab with
        cells := s.rab.cells.map fun y => if y.addr.setWidth 8 = k then y.commit x.merged else y
        st := some (frameStatus r) }
      env := s.env.exchange (packFrame 1#1 k x.merged)
      results := dataPacket r :: s.results } := by
  rw [exec_upd_of_cell? h, State.xchg_ok _ hr, State.updateCell, Rab.updateCell_eq, State.exchange_rab, hr]
  rfl

/-- A failed `UPD` makes its exchange, raises `BusError` and leaves the block as it was (R107). -/
theorem exec_upd_fault {k : Byte} {s : State} {x : ShadowCell} (h : s.rab.cell? k = some x)
    (hr : s.env.reply = .fault) :
    exec (.upd k) s = .next { s with
      env := s.env.exchange (packFrame 1#1 k x.merged)
      results := { kind := .busError } :: s.results } := by
  rw [exec_upd_of_cell? h, State.xchg_fault _ hr, State.exchange_failed (by simp [hr])]
  rfl

/-- Settles O16: by the environment's answer to the one exchange, whose frame the bytes fix. -/
theorem updWritesBackWholeWord : Obligations.UpdWritesBackWholeWord := by
  refine fun k s hs => ⟨?_, exec_refused_of_unshadowed hs (.inr (.inl rfl))⟩
  rintro x hx rfl c hc
  have hcell := hs.cell?_of_mem hx
  obtain rfl : c = packFrame 1#1 (x.addr.setWidth 8) x.merged := eq_packFrame_write hc
  exact ⟨fun r hr => exec_upd_ok hcell hr, exec_upd_fault hcell⟩

/-! ## `GETSH` -/

/-- `GETSH` on a register with a cell returns its shadow and its merged word and does nothing else (R109). -/
theorem exec_getsh_of_cell? {k : Byte} {s : State} {x : ShadowCell} (h : s.rab.cell? k = some x) :
    exec (.getsh k) s = .next (s.respond { kind := .ok, data := x.sh, frame := x.merged.setWidth 40 }) := by
  obtain ⟨y, hy, e⟩ := (execOr_getsh k s).resolve_left (by simp [h])
  obtain rfl : x = y := Option.some.inj (h.symm.trans hy)
  rw [exec_next, e]

/-- Settles O20: the cell found is the member the index names. -/
theorem getshReturnsShadowAndView : Obligations.GetshReturnsShadowAndView := fun _ _ hs =>
  ⟨fun _ hx hk => exec_getsh_of_cell? (hk ▸ hs.cell?_of_mem hx),
    exec_refused_of_unshadowed hs (.inr (.inr rfl))⟩

end Sys2Proof.Machine

/-! PROOFS. The Status Decoder (43_status_decoder.md): where the packed flags stand (R115), the byte `STDEC` decodes (R115), the latch `GETST` shows (R119). -/

namespace Sys2Proof.Machine

/-! ## The flags in the order of the result port -/

/-- The bits of the packed flags, bit 0 = `reset` (R28). -/
theorem StatusFlags.pack_getLsbD (f : StatusFlags) :
    f.pack.getLsbD 0 = f.reset ∧ f.pack.getLsbD 1 = f.driverError ∧
    f.pack.getLsbD 2 = f.overTemperatureWarning ∧ f.pack.getLsbD 3 = f.standstill := by
  obtain ⟨reset, driverError, otw, standstill⟩ := f
  revert reset driverError otw standstill
  decide

/-- The flags of a status byte are its four named bits in port order (R115). -/
theorem statusFlags_showsFlags (cfg : Cfg) (sb : Byte) : ShowsFlags cfg sb (statusFlags cfg sb) :=
  (decodeStatus cfg sb).pack_getLsbD

/-! ## `STDEC` -/

/-- `STDEC` drives the byte and its flags on the result port and does nothing else (R115, R116). -/
theorem exec_stdec (sb : Byte) (s : State) :
    exec (.stdec sb) s = .next (s.respond { kind := .ok, status := sb, flags := statusFlags s.cfg sb }) := rfl

/-- Settles O5: the flags are the ones of the decoded byte. -/
theorem stdecShowsFlags : Obligations.StdecShowsFlags := fun sb s =>
  ⟨statusFlags s.cfg sb, exec_stdec sb s, statusFlags_showsFlags s.cfg sb⟩

/-! ## `GETST` -/

/-- `GETST` drives what the latch gives on the result port and does nothing else (R119). -/
theorem exec_getst (s : State) : exec .getst s = .next (s.respond (latchedStatus s.cfg s.rab.st)) := rfl

@[simp] theorem latchedStatus_some (cfg : Cfg) (sb : Byte) : latchedStatus cfg (some sb) =
    { kind := .ok, valid := 1, status := sb, flags := statusFlags cfg sb } := rfl

@[simp] theorem latchedStatus_none (cfg : Cfg) : latchedStatus cfg none = { kind := .ok } := rfl

/-- Settles O7: by whether a response has been latched. -/
theorem getstReturnsLatchedStatus : Obligations.GetstReturnsLatchedStatus := by
  refine fun s => ⟨fun sb hst => ⟨statusFlags s.cfg sb, ?_, statusFlags_showsFlags s.cfg sb⟩, fun hst => ?_⟩
  · rw [exec_getst, hst, latchedStatus_some]
    rfl
  · rw [exec_getst, hst, latchedStatus_none]
    rfl

end Sys2Proof.Machine

/-! PROOFS. Register access (44_register_access.md): the two exchanges of `RDREG` (R126, R128), the one of `WRREG` under the three policies (R130, R132, R133), the level `ENABLE` and `DISABLE` drive (R140, R141, R142). -/

namespace Sys2Proof.Machine

/-- An exchange with a response latches the response's status and changes nothing else of the block (R20). -/
theorem State.exchange_of_ok {s : State} {r : Frame} (c : Frame) (h : s.env.reply = .ok r) :
    s.exchange c = { s with
      rab := { s.rab with st := some (frameStatus r) }
      env := s.env.exchange c } := by
  rw [State.exchange, h, latchStatus_ok]

/-! ## `RDREG` -/

/-- The frame of a read is fixed by its bytes: the masked address and the value 0 (R60, R126). -/
theorem eq_packFrame_read {c : Frame} {a : Byte} (hc : frameBytes c = [a &&& 0x7F#8, 0, 0, 0, 0]) :
    c = packFrame 0#1 a 0#32 := packFrame_of_bytes (read_byte0 a) hc

/-- `RDREG` after a first response is one more exchange of the same frame (R126). -/
theorem exec_rdreg_of_ok {a : Byte} {s : State} {r1 : Frame} (h1 : s.env.reply = .ok r1) :
    exec (.rdreg a) s = .next ((s.exchange (packFrame 0#1 a 0#32)).xchg (packFrame 0#1 a 0#32)
      fun r2 t => t.respond { kind := .ok, data := frameData r2 }) :=
  congrArg _ (State.xchg_ok _ h1)

/-- `RDREG` whose first exchange faults raises `BusError` and makes no other exchange (R128). -/
theorem exec_rdreg_of_fault {a : Byte} {s : State} (h1 : s.env.reply = .fault) :
    exec (.rdreg a) s = .next ((s.exchange (packFrame 0#1 a 0#32)).raise .busError) :=
  congrArg _ (State.xchg_fault _ h1)

/-- Settles O8: both exchanges latch a status, and the second response gives the value. -/
theorem rdregReturnsSecondResponse : Obligations.RdregReturnsSecondResponse := by
  intro a s c r1 r2 hc h1 h2
  obtain rfl := eq_packFrame_read hc
  rw [exec_rdreg_of_ok h1, State.xchg_ok _ h2, State.exchange_of_ok _ h2, State.exchange_of_ok _ h1]
  rfl

/-- Settles O9: the exchange that faults leaves the block as it was before that exchange. -/
theorem rdregFailsOnEitherExchange : Obligations.RdregFailsOnEitherExchange := by
  intro a s c hc
  obtain rfl := eq_packFrame_read hc
  refine ⟨fun h1 => ?_, fun r1 h1 h2 => ?_⟩
  · rw [exec_rdreg_of_fault h1, State.exchange_failed (by simp [h1])]
    rfl
  · rw [exec_rdreg_of_ok h1, State.xchg_fault _ h2, State.exchange_failed (by simp [h2]),
      State.exchange_of_ok _ h1]
    rfl

/-! ## `WRREG` -/

/-- `WRREG` to a register with a cell is refused under the policy `refuse`, before any exchange (R132). -/
theorem exec_wrreg_refused {a : Byte} {s : State} (hs : s.FileShape) (v : Word)
    (ha : shadowed s.cfg (maskAddr a) = true) (hp : s.cfg.rawWrite = .refuse) :
    exec (.wrreg a v) s = .next (s.raise .refused) := by
  obtain ⟨x, hx⟩ := hs.cell?_some ha
  obtain ⟨_, _, _, e⟩ := (execOr_wrreg a v s).resolve_right fun ⟨hn, _⟩ => hn x hx hp
  rw [exec_next, e]

/-- `WRREG` that is not refused is one exchange; after a response the policy `update` overwrites the shadow (R130, R132). -/
theorem exec_wrreg_of_not_refused {a : Byte} {s : State} (hs : s.FileShape) (v : Word)
    (hn : ¬(shadowed s.cfg (maskAddr a) = true ∧ s.cfg.rawWrite = .refuse)) :
    exec (.wrreg a v) s = .next (s.xchg (packFrame 1#1 a v) fun r t =>
      (if s.cfg.rawWrite = .update then t.updateCell (maskAddr a) (ShadowCell.overwrite v) else t).respond
        (dataPacket r)) := by
  obtain ⟨_, e⟩ := (execOr_wrreg a v s).resolve_left fun ⟨x, hx, hp, _⟩ =>
    hn ⟨(hs.shadowed_iff _).2 ⟨x, Rab.cell?_some hx⟩, hp⟩
  rw [exec_next, e]

/-- A cell changed on a condition that is the same for the whole file: each named cell is changed if the condition holds. -/
theorem State.ite_updateCell_eq (p : Prop) [Decidable p] (k : Byte) (f : ShadowCell → ShadowCell) (s : State) :
    (if p then s.updateCell k f else s) = { s with
      rab := { s.rab with cells := s.rab.cells.map fun x => if x.addr.setWidth 8 = k ∧ p then f x else x } } := by
  by_cases hp : p
  · simp only [hp, and_true, if_true, State.updateCell, Rab.updateCell_eq]
  · simp only [hp, and_false, if_false, List.map_id']

/-- Settles O12: by whether the policy refuses, then by the environment's answer to the one exchange. -/
theorem wrregWritesOnce : Obligations.WrregWritesOnce := by
  intro a v s c hs hc
  obtain rfl : c = packFrame 1#1 a v := packFrame_of_bytes (write_byte0 a) hc
  refine ⟨exec_wrreg_refused hs v, fun hn => ⟨fun r hr => ?_, fun hr => ?_⟩⟩ <;>
    rw [exec_wrreg_of_not_refused hs v hn]
  · rw [State.xchg_ok _ hr, State.ite_updateCell_eq, State.exchange_of_ok _ hr]
    rfl
  · rw [State.xchg_fault _ hr, State.exchange_failed (by simp [hr])]
    rfl

/-! ## `ENABLE` and `DISABLE` -/

/-- A pin write the driver takes sets `EN` to the level driven (R140, R141). -/
theorem State.drivePin_ok {s : State} (on : Bool) (hl : s.cfg.hasEnable = true) (hp : s.env.pinDraw = .ok) :
    s.drivePin on = State.respond { kind := .ok }
      { s with rab := { s.rab with en := enableLevel s.cfg on }, env := s.env.pinWrite } := by
  obtain ⟨_, _, e⟩ := (State.drivePin_cases on s).resolve_right (by simp [hl, hp])
  exact e

/-- A pin write the driver fails raises `PinError`, and `EN` keeps its value (R157). -/
theorem State.drivePin_fault {s : State} (on : Bool) (hl : s.cfg.hasEnable = true) (hp : s.env.pinDraw = .fault) :
    s.drivePin on = State.raise .pinError { s with env := s.env.pinWrite } := by
  obtain ⟨_, _, e⟩ := ((State.drivePin_cases on s).resolve_left (by simp [hp])).resolve_right (by simp [hl])
  exact e

/-- Without an enable line nothing is driven (R142). -/
theorem State.drivePin_refused {s : State} (on : Bool) (hl : s.cfg.hasEnable = false) :
    s.drivePin on = s.raise .refused := by
  obtain ⟨_, e⟩ := ((State.drivePin_cases on s).resolve_left (by simp [hl])).resolve_left (by simp [hl])
  exact e

/-- The level of `ENABLE`, `1 ^ INVERT_ENABLE` (R140). -/
theorem enableLevel_true (cfg : Cfg) : enableLevel cfg true = if cfg.invertEnable then .low else .high := by
  cases h : cfg.invertEnable <;> simp [enableLevel, h]

/-- The level of `DISABLE`, `0 ^ INVERT_ENABLE` (R141). -/
theorem enableLevel_false (cfg : Cfg) : enableLevel cfg false = if cfg.invertEnable then .high else .low := by
  cases h : cfg.invertEnable <;> simp [enableLevel, h]

theorem exec_enable (s : State) : exec .enable s = .next (s.drivePin true) := rfl

theorem exec_disable (s : State) : exec .disable s = .next (s.drivePin false) := rfl

/-- Settles O21: by the driver's answer. -/
theorem enableDrivesLine : Obligations.EnableDrivesLine := by
  intro s
  rw [exec_enable, ← enableLevel_true]
  exact ⟨fun hl hp => congrArg _ (State.drivePin_ok true hl hp),
    fun hl hp => congrArg _ (State.drivePin_fault true hl hp),
    fun hl => congrArg _ (State.drivePin_refused true hl)⟩

/-- Settles O22: by the driver's answer. -/
theorem disableDrivesLine : Obligations.DisableDrivesLine := by
  intro s
  rw [exec_disable, ← enableLevel_false]
  exact ⟨fun hl hp => congrArg _ (State.drivePin_ok false hl hp),
    fun hl hp => congrArg _ (State.drivePin_fault false hl hp),
    fun hl => congrArg _ (State.drivePin_refused false hl)⟩

/-- Settles O23: neither operation drives a line that is absent. -/
theorem absentLineRefusesBoth : Obligations.AbsentLineRefusesBoth := fun _ hl =>
  ⟨congrArg _ (State.drivePin_refused true hl), congrArg _ (State.drivePin_refused false hl)⟩

end Sys2Proof.Machine

/-! PROOFS. Exceptions (60_exceptions.md): a faulted exchange is the last of its operation and its one result, `BUS_ERROR` (R151, R152). -/

namespace Sys2Proof.Machine

/-! ## What an operation reports of its exchanges -/

/-- From s to t some exchanges were made and some results returned: `BUS_ERROR` stands for a fault among the exchanges and for nothing else, only the last exchange can have failed, and a fault leaves the shadow file (R151, R152). -/
def State.FaultReported (s t : State) : Prop :=
  ∃ new : List ExchangeRecord, ∃ rs : List Result,
    t.env.trace = new ++ s.env.trace ∧ t.results = rs ++ s.results ∧
    ((∃ r ∈ rs, r.kind = .busError) ↔ ∃ x ∈ new, x.answer = .fault) ∧
    (∀ r ∈ rs, r.kind = .busError → r = { kind := .busError }) ∧
    (∀ x ∈ new.tail, ∃ f : Frame, x.answer = .ok f) ∧
    ((∃ x ∈ new, x.answer = .fault) → t.rab.cells = s.rab.cells)

/-- Without an exchange there is no fault, so no result may be `BUS_ERROR`. -/
theorem State.FaultReported.of_no_exchange {s t : State} (rs : List Result) (htrace : t.env.trace = s.env.trace)
    (hresults : t.results = rs ++ s.results) (hkind : ∀ r ∈ rs, r.kind ≠ .busError) : s.FaultReported t :=
  ⟨[], rs, htrace, hresults, by simpa using hkind, fun r hr hb => absurd hb (hkind r hr), by simp, by simp⟩

/-- An operation that ends with a result and makes no exchange. -/
theorem State.FaultReported.respond (s : State) {r : Result} (hr : r.kind ≠ .busError) :
    s.FaultReported (s.respond r) :=
  .of_no_exchange [r] rfl rfl (by simpa using hr)

/-- An exchange that faults is reported by `BUS_ERROR` and nothing follows it (R91, R151). -/
theorem State.FaultReported.raise_busError {s : State} (c : Frame) (h : s.env.reply = .fault) :
    s.FaultReported ((s.exchange c).raise .busError) :=
  ⟨[_], [_], rfl, rfl, by simp [h], by simp, by simp, fun _ => rfl⟩

/-- An exchange that never answers is no fault, and nothing follows it (R190). -/
theorem State.FaultReported.hang {s : State} (c : Frame) (h : s.env.reply = .silence) :
    s.FaultReported (s.exchange c).hang :=
  ⟨[_], [], rfl, rfl, by simp [h], by simp, by simp, by simp [h]⟩

/-- An exchange with a response before the others adds no fault, and what fails after it is still the last. -/
theorem State.FaultReported.after_ok {s t : State} {c r : Frame} (hr : s.env.reply = .ok r)
    (h : (s.exchange c).FaultReported t) : s.FaultReported t := by
  obtain ⟨new, rs, htrace, hresults, hiff, hfields, htail, hcells⟩ := h
  obtain ⟨first, hok, htrace⟩ : ∃ first : ExchangeRecord, first.answer = .ok r ∧
      t.env.trace = new ++ first :: s.env.trace := ⟨_, hr, htrace⟩
  have hfault : (∃ x ∈ new ++ [first], x.answer = .fault) ↔ ∃ x ∈ new, x.answer = .fault := by
    simp [or_and_right, exists_or, hok]
  refine ⟨new ++ [first], rs, by simp [htrace], hresults, hiff.trans hfault.symm, hfields, fun x hx => ?_,
    fun hx => hcells (hfault.1 hx)⟩
  cases new with
  | nil => cases hx
  | cons last earlier =>
    rcases List.mem_append.1 hx with hx | hx
    · exact htail x hx
    · exact ⟨r, List.mem_singleton.1 hx ▸ hok⟩

/-- `Xchg` reports its fault, so what follows a response decides. -/
theorem State.FaultReported.xchg {s : State} (c : Frame) {go : Frame → State → State}
    (hgo : ∀ r, (s.exchange c).FaultReported (go r (s.exchange c))) : s.FaultReported (s.xchg c go) := by
  rcases State.xchg_cases c s go with ⟨r, hr, e⟩ | ⟨hr, e⟩ | ⟨hr, e⟩ <;> rw [e]
  · exact .after_ok hr (hgo r)
  · exact .raise_busError c hr
  · exact .hang c hr

/-! ## The operations -/

/-- A pin failure is a `PIN_ERROR` (R157). -/
theorem State.FaultReported.drivePin (s : State) (on : Bool) : s.FaultReported (s.drivePin on) := by
  rcases State.drivePin_cases on s with ⟨_, _, e⟩ | ⟨_, _, e⟩ | ⟨_, e⟩ <;> rw [e]
  · exact .of_no_exchange [_] rfl rfl (by simp)
  · exact .of_no_exchange [_] rfl rfl (by simp)
  · exact .respond s (by simp)

theorem latchedStatus_kind (cfg : Cfg) (st : Option Byte) : (latchedStatus cfg st).kind = .ok := by
  cases st <;> rfl

/-- Every instruction reports the faults of its exchanges: only `RDREG`, `WRREG` and `UPD` make any, each through `Xchg`. -/
theorem State.FaultReported.execOr (i : Instr) (s : State) : s.FaultReported (execOr i s) := by
  cases i
  case rd a v => exact .of_no_exchange [] rfl rfl (by simp)
  case wr a v => exact .of_no_exchange [] rfl rfl (by simp)
  case rdreg a => exact .xchg _ fun _ => .xchg _ fun _ => .respond _ (by simp)
  case wrreg a v =>
    rcases execOr_wrreg a v s with ⟨_, _, _, e⟩ | ⟨_, e⟩ <;> rw [e]
    · exact .respond s (by simp)
    · refine .xchg _ fun r => ?_
      split
      · exact .of_no_exchange [dataPacket r] rfl rfl (by simp [dataPacket])
      · exact .respond _ (by simp [dataPacket])
  case upd k =>
    rcases execOr_upd k s with ⟨_, e⟩ | ⟨_, _, e⟩ <;> rw [e]
    · exact .respond s (by simp)
    · exact .xchg _ fun r => .of_no_exchange [dataPacket r] rfl rfl (by simp [dataPacket])
  case setf k m b =>
    rcases execOr_setf k m b s with ⟨_, e⟩ | ⟨_, _, e⟩ <;> rw [e]
    · exact .respond s (by simp)
    · exact .of_no_exchange [_] rfl rfl (by simp)
  case getsh k => rcases execOr_getsh k s with ⟨_, e⟩ | ⟨_, _, e⟩ <;> rw [e] <;> exact .respond s (by simp)
  case getst => exact .respond s (by simp [latchedStatus_kind])
  case enable => exact .drivePin s true
  case disable => exact .drivePin s false
  -- the operations left end at once with `OK` or `REFUSED`
  all_goals exact .respond s (by simp)

/-- Settles O30: the one next state an instruction answers reports the faults of its exchanges. -/
theorem faultEndsOperationAsBusError : Obligations.FaultEndsOperationAsBusError := by
  intro i s t ht
  obtain rfl := execOr_eq ht
  exact State.FaultReported.execOr i s

end Sys2Proof.Machine

/-! PROOFS. What every step keeps (10_state.md): the straps (R24, R26), the file's shape (R14), the patch invariant (R18), the absent line (R22), the device's canonical registers (D18), the values held under `rst` (R32); and that all of it holds right after reset. -/

namespace Sys2Proof.Machine

/-! ## The straps (R24(a), R26) -/

/-- No instruction writes the straps. -/
theorem execOr_cfg (i : Instr) (s : State) : (execOr i s).cfg = s.cfg :=
  exec_keeps (fun u => u.cfg = s.cfg)
    (respond := fun _ _ h => h) (hang := fun _ h => h) (exchange := fun _ _ h => h)
    (take := fun _ _ _ h => h) (drive := fun _ _ h _ => h) (pinWrite := fun _ h => h)
    (patch := fun _ _ _ _ h => h) (overwrite := fun _ _ _ _ h _ _ => h)
    (commit := fun _ _ _ _ h _ _ => h) i s rfl

/-- Settles O36: reset, the inputs and every instruction leave the straps as they were. -/
theorem strapsNeverWritten : Obligations.StrapsNeverWritten := fun s _ hstep =>
  step_keeps (fun u => u.cfg = s.cfg) hstep rfl
    (reset := fun _ _ h => h) (rst := fun _ _ h => h) (inputs := fun _ _ h => h)
    (exec := fun i u h => (execOr_cfg i u).trans h)

/-! ## The file's shape (R14) -/

/-- A change of a cell that keeps its address keeps the file's shape. -/
theorem State.FileShape.updateCell {s : State} (h : s.FileShape) (k : Byte) {f : ShadowCell → ShadowCell}
    (hf : ∀ c, (f c).addr = c.addr) : (s.updateCell k f).FileShape :=
  ⟨h.1, (Rab.updateCell_addrs s.rab k hf).trans h.2⟩

/-- Every instruction keeps the file's shape: only `SETF`, `UPD` and `WRREG` change a cell, and none its address. -/
theorem State.FileShape.execOr {s : State} (h : s.FileShape) (i : Instr) : (execOr i s).FileShape :=
  exec_keeps State.FileShape
    (respond := fun _ _ hs => hs) (hang := fun _ hs => hs) (exchange := fun _ _ hs => hs)
    (take := fun _ _ _ hs => hs) (drive := fun _ _ hs _ => hs) (pinWrite := fun _ hs => hs)
    (patch := fun _ k m b hs => hs.updateCell k (ShadowCell.patch_addr m b))
    (overwrite := fun _ a v _ hs _ _ => State.FileShape.updateCell hs (maskAddr a) (ShadowCell.overwrite_addr v))
    (commit := fun _ k x _ hs _ _ => State.FileShape.updateCell hs k (ShadowCell.commit_addr x.merged)) i s h

theorem State.resetBlock_fileShape {s : State} (hc : cfgOk s.cfg = true) : s.resetBlock.FileShape :=
  State.construct_fileShape hc

/-- Settles O38: reset builds the shape from the straps, and every instruction keeps it. -/
theorem stepKeepsFileShape : Obligations.StepKeepsFileShape := fun _ _ h hstep =>
  step_keeps State.FileShape hstep h
    (reset := fun _ hc _ => State.resetBlock_fileShape hc) (rst := fun _ _ hs => hs)
    (inputs := fun _ _ hs => hs) (exec := fun i _ hs => hs.execOr i)

/-! ## The patch invariant (R18) -/

/-- A change of a cell that keeps `PV & ~PM = 0` of the cell keeps it of the file. -/
theorem State.PatchInv.updateCell {s : State} (h : s.PatchInv) (k : Byte) {f : ShadowCell → ShadowCell}
    (hf : ∀ c, c.pv &&& ~~~c.pm = 0 → (f c).pv &&& ~~~(f c).pm = 0) : (s.updateCell k f).PatchInv := by
  intro y hy
  rcases Rab.mem_updateCell hy with ⟨c, hc, _, rfl⟩ | ⟨hm, _⟩
  · exact hf c (h c hc)
  · exact h y hm

/-- A committed cell has nothing pending. -/
theorem ShadowCell.commit_inv (w : Word) (c : ShadowCell) : (c.commit w).pv &&& ~~~(c.commit w).pm = 0 :=
  BitVec.zero_and

/-- Every instruction keeps the patch invariant: `SETF` sets `PV` under its mask, `UPD` clears both, `WRREG` touches neither. -/
theorem State.PatchInv.execOr {s : State} (h : s.PatchInv) (i : Instr) : (execOr i s).PatchInv :=
  exec_keeps State.PatchInv
    (respond := fun _ _ hs => hs) (hang := fun _ hs => hs) (exchange := fun _ _ hs => hs)
    (take := fun _ _ _ hs => hs) (drive := fun _ _ hs _ => hs) (pinWrite := fun _ hs => hs)
    (patch := fun _ k m b hs => hs.updateCell k fun _ hc => ShadowCell.patch_inv m b hc)
    (overwrite := fun _ a _ _ hs _ _ => State.PatchInv.updateCell hs (maskAddr a) fun _ hc => hc)
    (commit := fun _ k x _ hs _ _ => State.PatchInv.updateCell hs k fun c _ => c.commit_inv x.merged) i s h

/-- At reset nothing is pending. -/
theorem State.construct_patchInv (cfg : Cfg) : (State.construct cfg).PatchInv := by
  intro x hx
  obtain ⟨e, _, rfl⟩ := Rab.mem_construct_cells hx
  exact BitVec.zero_and

theorem State.resetBlock_patchInv (s : State) : s.resetBlock.PatchInv := State.construct_patchInv s.cfg

/-- Settles O39: reset leaves nothing pending, and every instruction keeps the patch under its mask. -/
theorem stepKeepsPatchInvariant : Obligations.StepKeepsPatchInvariant := fun _ _ h hstep =>
  step_keeps State.PatchInv hstep h
    (reset := fun s _ _ => s.resetBlock_patchInv) (rst := fun _ _ hs => hs)
    (inputs := fun _ _ hs => hs) (exec := fun i _ hs => hs.execOr i)

/-! ## The absent enable line (R22) -/

/-- Every instruction keeps it: the line is driven only where there is one. -/
theorem State.EnableInv.execOr {s : State} (h : s.EnableInv) (i : Instr) : (execOr i s).EnableInv :=
  exec_keeps State.EnableInv
    (respond := fun _ _ hs => hs) (hang := fun _ hs => hs) (exchange := fun _ _ hs => hs)
    (take := fun _ _ _ hs => hs)
    (drive := fun _ _ _ hl hn => absurd hl (Bool.eq_false_iff.1 hn))
    (pinWrite := fun _ hs => hs) (patch := fun _ _ _ _ hs => hs)
    (overwrite := fun _ _ _ _ hs _ _ => hs) (commit := fun _ _ _ _ hs _ _ => hs) i s h

/-- Settles O44: reset leaves the line undriven, and no instruction drives an absent one. -/
theorem stepKeepsAbsentLineUndriven : Obligations.StepKeepsAbsentLineUndriven := fun _ _ h hstep =>
  step_keeps State.EnableInv hstep h
    (reset := fun _ _ _ _ => rfl) (rst := fun _ _ hs => hs)
    (inputs := fun _ _ hs => hs) (exec := fun i _ hs => hs.execOr i)

/-! ## The reference device's registers (D18) -/

/-- A datagram the device takes keeps its registers canonical. -/
theorem State.DeviceInv.take {s : State} (h : s.DeviceInv) (i : Instr) (f : Frame) :
    ({ s with env := s.env.take i f } : State).DeviceInv := by
  intro d hd
  obtain ⟨d0, h0, rfl⟩ := Option.map_eq_some_iff.1 hd
  exact RefDev.take_wf i (h d0 h0)

/-- Every instruction keeps the device's registers canonical: an exchange does, with or without a response. -/
theorem State.DeviceInv.execOr {s : State} (h : s.DeviceInv) (i : Instr) : (execOr i s).DeviceInv :=
  exec_keeps State.DeviceInv
    (respond := fun _ _ hs => hs) (hang := fun _ hs => hs)
    (exchange := fun _ _ hs => Env.exchange_device_wf hs)
    (take := fun _ j f hs => hs.take j f) (drive := fun _ _ hs _ => hs) (pinWrite := fun _ hs => hs)
    (patch := fun _ _ _ _ hs => hs) (overwrite := fun _ _ _ _ hs _ _ => Env.exchange_device_wf hs)
    (commit := fun _ _ _ _ hs _ _ => Env.exchange_device_wf hs) i s h

/-- Settles O43: reset leaves the device alone, and every instruction keeps its registers canonical. -/
theorem stepKeepsDeviceCanonical : Obligations.StepKeepsDeviceCanonical := fun _ _ h hstep =>
  step_keeps State.DeviceInv hstep h
    (reset := fun _ _ hs => hs) (rst := fun _ _ hs => hs)
    (inputs := fun _ _ hs => hs) (exec := fun i _ hs => hs.execOr i)

/-! ## The values held while `rst` is 1 (R32) -/

/-- A level on the reset port keeps the reset values held: a 1 sets them, a 0 leaves `rst` at 0. -/
theorem State.driveRst_rstInv (level : Bool) (s : State) : (s.driveRst level).RstInv := by
  intro hr
  obtain rfl : level = true := (s.driveRst_rst level).symm.trans hr
  exact ⟨rfl, rfl⟩

/-- A step keeps the reset values held: an operation runs only while `rst` is 0, and leaves it so. -/
theorem step_keeps_rstInv {s t : State} (h : s.RstInv) (hstep : step s = .next t) : t.RstInv := by
  obtain ⟨_, ⟨_, _, rfl⟩ | ⟨level, rest, _, rfl⟩ | ⟨_, _, rfl⟩ | ⟨_, i, _, _, hready, _, rfl⟩⟩ := step_cases hstep
  · exact h
  · exact State.driveRst_rstInv level _
  · exact fun _ => ⟨rfl, rfl⟩
  · intro hr
    rw [execOr_rst] at hr
    exact absurd hr (Bool.eq_false_iff.1 (s.cmdReady_iff.1 hready).1)

/-- While `rst` is 1 a step gives the block its reset values, whatever is presented. -/
theorem step_under_rst {s : State} (hc : cfgOk s.cfg = true) (hr : s.rst = true) :
    ∃ level rest, step s = .next { s.resetBlock with rst := level, inputs := rest } ∧
      (nextRst s.inputs = none → level = true ∧ rest = s.inputs) ∧
      (∀ p, nextRst s.inputs = some p → level = p.1 ∧ rest = p.2) := by
  rw [step_of_rst hc hr]
  cases hn : nextRst s.inputs with
  | none => exact ⟨true, s.inputs, by rw [← hr]; rfl, by simp, by simp⟩
  | some p =>
    refine ⟨p.1, p.2, congrArg _ (State.driveRst_reset ?_), by simp, by simp⟩
    simp [hr]

/-- While `rst` is 1 no exchange is started (R32). -/
theorem State.xStart_of_rst {s : State} (hc : cfgOk s.cfg = true) (hr : s.rst = true) : s.xStart = false := by
  obtain ⟨level, rest, hstep, _⟩ := step_under_rst hc hr
  simp [State.xStart, hstep]

/-- Settles O59: while `rst` is 1 the step is a reset; that the values are held is an invariant of every step. -/
theorem rstHoldsResetValues : Obligations.RstHoldsResetValues := by
  refine ⟨fun s hc hr => ⟨by simp [State.cmdReady, hr], State.xStart_of_rst hc hr, ?_⟩,
    fun _ _ => step_keeps_rstInv⟩
  obtain ⟨level, rest, hstep, hheld, hlevel⟩ := step_under_rst hc hr
  refine ⟨_, hstep, rfl, rfl, rfl, rfl, rfl, fun hin => hheld ((nextRst_none_iff _).2 hin), fun rest' hin => ?_⟩
  obtain ⟨rfl, rfl⟩ := hlevel (false, rest') (by rw [hin, nextRst_rst])
  exact ⟨rfl, rfl, rfl⟩

/-! ## Reset (R25, R32) -/

/-- The invariants hold at reset whatever device is attached, if its registers are canonical. -/
theorem State.construct_invariants {cfg : Cfg} (hc : cfgOk cfg = true) :
    (State.construct cfg).FileShape ∧ (State.construct cfg).PatchInv ∧
    (State.construct cfg).ShadowInv ∧ (State.construct cfg).StatusInv ∧
    (State.construct cfg).EnableInv ∧ (State.construct cfg).RstInv ∧
    (State.construct cfg).DeviceInv ∧ (State.construct cfg).attachRefDev.DeviceInv := by
  refine ⟨State.construct_fileShape hc, State.construct_patchInv cfg, State.shadowInv_of_reset hc rfl rfl, rfl,
    fun _ => rfl, fun _ => ⟨rfl, rfl⟩, fun _ hd => (by cases hd), fun d hd => ?_⟩
  obtain rfl : RefDev.initial cfg = d := Option.some.inj hd
  exact RefDev.initial_wf cfg

/-- Settles O45: the invariants hold under every legal configuration, and the test configuration is one. -/
theorem invariantsHoldAtReset : Obligations.InvariantsHoldAtReset := by
  obtain ⟨hshape, hpatch, hshadow, hstatus, henable, hrst, hdevice, _⟩ :=
    State.construct_invariants (cfg := Cfg.test) (by decide)
  exact ⟨fun _ hc => State.construct_invariants hc,
    hshape, hpatch, hshadow, hstatus, hdevice, henable, hrst⟩

/-- Every cell of the file at reset holds its `SHADOW_RESET` word with nothing pending (R25). -/
theorem Rab.construct_cell_values {cfg : Cfg} (hc : cfgOk cfg = true) {x : ShadowCell}
    (hx : x ∈ (Rab.construct cfg).cells) : x.sh = shadowReset cfg x.addr ∧ x.pm = 0 ∧ x.pv = 0 := by
  obtain ⟨e, he, rfl⟩ := Rab.mem_construct_cells hx
  exact ⟨(shadowReset_of_mem (cfgOk_distinct hc) he).symm, rfl, rfl⟩

/-- A level of `rst` presented next is taken whatever is in progress (R32). -/
theorem step_of_rst_presented {s : State} {level : Bool} {rest : List Input} (hc : cfgOk s.cfg = true)
    (hin : s.inputs = .rst level :: rest) : step s = .next (State.driveRst level { s with inputs := rest }) := by
  cases hr : s.cmdReady <;> simp [step, hc, hr, hin]

/-- Settles O46: the reset port driven to 1, or released, resets the block. -/
theorem resetTakesResetValues : Obligations.ResetTakesResetValues := by
  refine ⟨fun s level rest hc hin hlevel => ?_, fun cfg hc =>
    ⟨fun _ hx => Rab.construct_cell_values hc hx, (State.construct_fileShape hc).2, rfl, rfl⟩⟩
  have hstep := step_of_rst_presented hc hin
  rw [State.driveRst_reset (by simpa using hlevel)] at hstep
  exact ⟨_, hstep, fun _ hx => Rab.construct_cell_values hc hx, (State.construct_fileShape hc).2,
    rfl, rfl, rfl, Bool.and_true _, rfl, rfl, rfl, rfl, rfl, rfl, rfl, rfl⟩

/-! ## The step (R30, R125) -/

/-- Settles O47: while `cmd_ready` is 1 an input that stands for an instruction runs its meaning. -/
theorem stepRunsPresentedInstruction : Obligations.StepRunsPresentedInstruction := by
  intro s x i rest hc hrst hwait hin hx
  have hready : s.cmdReady = true := s.cmdReady_iff.2 ⟨hrst, hwait⟩
  cases x with
  | command c =>
    obtain rfl : decodeCommand c = i := Option.some.inj hx
    simp [step, hc, hready, hin]
  | frame f =>
    obtain rfl : decodeFrame f = i := Option.some.inj hx
    simp [step, hc, hready, hin]
  | rst level => cases hx

/-- Settles O48: by the first two decisions of the step. -/
theorem stepIdlesOrRefusesConfiguration : Obligations.StepIdlesOrRefusesConfiguration := by
  refine fun s => ⟨fun hc hrst hwait hin => ?_, fun hc => ?_⟩
  · simp [step, hc, s.cmdReady_iff.2 ⟨hrst, hwait⟩, hin]
  · simp [step, hc]

end Sys2Proof.Machine

/-! PROOFS. The encoding (30_encoding.md, 40_frame_codec.md): a frame is its direction, address and value (R60, R65, R85), an instruction comes back from its encoding, as an input and as bytes, and words of the spec. -/

namespace Sys2Proof.Machine

/-! ## Frames -/

/-- A command frame is assembled from its own direction, address and value (R60, R63). -/
theorem packFrame_parts (f : Frame) : packFrame (frameDir f) ((frameAddr f).setWidth 8) (frameData f) = f := by
  rw [packFrame_eq_append, Laws.RoundTrip.addr_round_trip]
  simp only [frameDir, frameAddr, frameData]
  rw [BitVec.extractLsb'_append_extractLsb'_eq_extractLsb' (by decide : 39 = 32 + 7),
    BitVec.extractLsb'_append_extractLsb'_eq_extractLsb' (by decide : 32 = 0 + 32), BitVec.extractLsb'_eq_self]

/-- Settles O4: direction, address and value make and are made by one frame; so do byte 0 and the value. -/
theorem codecIsBijective : Obligations.CodecIsBijective := by
  refine ⟨Function.bijective_iff_has_inverse.2
      ⟨fun f => (frameDir f, frameAddr f, frameData f), fun ⟨w, a, v⟩ => ?_, packFrame_parts⟩,
    Function.bijective_iff_has_inverse.2
      ⟨fun p => joinFrame p.1 p.2, joinFrame_parts, fun ⟨b, v⟩ => ?_⟩⟩
  · simp
  · simp

/-- The direction of a frame is its bit 39. -/
theorem frameDir_eq_ofBool (f : Frame) : frameDir f = BitVec.ofBool (f.getLsbD 39) := by
  apply BitVec.eq_of_getLsbD_eq
  intro i hi
  obtain rfl : i = 0 := by omega
  simp [frameDir]

/-- Settles O51: bit 39 selects the datagram, and the datagram's frame is assembled from the frame's own parts. -/
theorem everyFrameIsOneDatagram : Obligations.EveryFrameIsOneDatagram := by
  intro f
  have hparts := packFrame_parts f
  cases hdir : f.getLsbD 39 with
  | false =>
    have hw : frameDir f = 0#1 := by rw [frameDir_eq_ofBool, hdir]; rfl
    have hdec : decodeFrame f = .rd (frameAddr f) (frameData f) := if_neg (by simp [hw])
    rw [hw] at hparts
    exact ⟨by rw [hdec, encode, hparts], fun _ => hdec, by simp⟩
  | true =>
    have hw : frameDir f = 1#1 := by rw [frameDir_eq_ofBool, hdir]; rfl
    have hdec : decodeFrame f = .wr (frameAddr f) (frameData f) := if_pos hw
    rw [hw] at hparts
    exact ⟨by rw [hdec, encode, hparts], by simp, fun _ => hdec⟩

/-- Settles O3: the frame `ENC` returned is split into what it was assembled from. -/
theorem decOfEncRecoversValue : Obligations.DecOfEncRecoversValue := by
  intro dir a v s
  refine ⟨_, _, exec_enc dir a v s, rfl, ?_⟩
  rw [exec_dec, frameStatus_packFrame, frameData_packFrame]
  rfl

/-! ## Bytes (R71; log 10) -/

/-- A frame's bytes in transmission order spell it. -/
theorem frameOfBytes_frameBytes (f : Frame) : decodeBytes (frameBytes f) = .ok (.frame f) := by
  have hvalue : f.extractLsb' 24 8 ++ f.extractLsb' 16 8 ++ f.extractLsb' 8 8 ++ f.extractLsb' 0 8 =
      frameData f := by
    rw [BitVec.extractLsb'_append_extractLsb'_eq_extractLsb' (by decide : 24 = 16 + 8),
      BitVec.extractLsb'_append_extractLsb'_eq_extractLsb' (by decide : 16 = 8 + 8),
      BitVec.extractLsb'_append_extractLsb'_eq_extractLsb' (by decide : 8 = 0 + 8)]
    rfl
  have hframe : frameOfBytes (f.extractLsb' 32 8) (f.extractLsb' 24 8) (f.extractLsb' 16 8)
      (f.extractLsb' 8 8) (f.extractLsb' 0 8) = f := by
    rw [frameOfBytes, hvalue]
    exact joinFrame_parts f
  exact congrArg (fun g => Except.ok (Input.frame g)) hframe

/-- The command word has zero padding and holds each signal of the command in its place. -/
theorem wordOfCommand_parts (c : Command) :
    (wordOfCommand c).extractLsb' 116 4 = 0#4 ∧ commandOfWord (wordOfCommand c) = c := by
  have above : ∀ {n m start len : Nat} {hi : BitVec n} {lo : BitVec m}, m ≤ start →
      (hi ++ lo).extractLsb' start len = hi.extractLsb' (start - m) len :=
    fun h => BitVec.extractLsb'_append_eq_of_le h
  have below : ∀ {n m start len : Nat} {hi : BitVec n} {lo : BitVec m}, start + len ≤ m →
      (hi ++ lo).extractLsb' start len = lo.extractLsb' start len :=
    fun h => BitVec.extractLsb'_append_eq_of_add_le h
  obtain ⟨op, dir, a, wdata, wmask, fin⟩ := c
  simp [wordOfCommand, commandOfWord, above, below]

/-- The fifteen bytes of a command word spell its command. -/
theorem decodeBytes_wordOfCommand (c : Command) :
    decodeBytes (bytesOfNat 15 (wordOfCommand c).toNat) = .ok (.command c) := by
  obtain ⟨hpad, hcommand⟩ := wordOfCommand_parts c
  have hlen := length_bytesOfNat 15 (wordOfCommand c).toNat
  have hword : BitVec.ofNat 120 (natOfBytes (bytesOfNat 15 (wordOfCommand c).toNat)) = wordOfCommand c := by
    have hlt : (wordOfCommand c).toNat < 256 ^ 15 := (wordOfCommand c).isLt.trans_eq (by norm_num)
    rw [natOfBytes_bytesOfNat, Nat.mod_eq_of_lt hlt, BitVec.ofNat_toNat, BitVec.setWidth_eq]
  unfold decodeBytes
  split
  · next h => rw [h] at hlen; cases hlen
  · rw [if_pos hlen, hword, if_pos hpad, hcommand]

/-- Every input but a level of `rst` has bytes that spell it. -/
theorem decodeBytes_encodeBytes {x : Input} {bs : List Byte} (h : encodeBytes x = some bs) :
    decodeBytes bs = .ok x := by
  cases x with
  | command c => exact Option.some.inj h ▸ decodeBytes_wordOfCommand c
  | frame f => exact Option.some.inj h ▸ frameOfBytes_frameBytes f
  | rst level => cases h

/-- Every instruction's encoding has bytes. -/
theorem encodeBytes_encode (i : Instr) : ∃ bs, encodeBytes (encode i) = some bs := by
  cases i <;> exact ⟨_, rfl⟩

/-- A well-formed instruction comes back from the input that presents it. -/
theorem instr?_encode (i : Instr) : Laws.RoundTrip.Statement i := by
  cases i with
  | rd a v => exact Laws.RoundTrip.rd a v
  | wr a v => exact Laws.RoundTrip.wr a v
  | enc dir a v => exact Laws.RoundTrip.enc dir a v
  | dec f => exact Laws.RoundTrip.dec f
  | stdec sb => exact Laws.RoundTrip.stdec sb
  | rdreg a => exact Laws.RoundTrip.rdreg a
  | wrreg a v => exact Laws.RoundTrip.wrreg a v
  | setf k m b => exact Laws.RoundTrip.setf k m b
  | upd k => exact Laws.RoundTrip.upd k
  | getst => exact Laws.RoundTrip.getst
  | getsh k => exact Laws.RoundTrip.getsh k
  | enable => exact Laws.RoundTrip.enable
  | disable => exact Laws.RoundTrip.disable
  | reserved0 => exact Laws.RoundTrip.reserved0
  | reservedC => exact Laws.RoundTrip.reservedC
  | reservedD => exact Laws.RoundTrip.reservedD
  | reservedE => exact Laws.RoundTrip.reservedE
  | reservedF => exact Laws.RoundTrip.reservedF

/-- Settles O50: the input decodes to the instruction, and the bytes spell the input. -/
theorem decodeOfEncodeIsIdentity : Obligations.DecodeOfEncodeIsIdentity := fun i hwf =>
  have ⟨bs, hbs⟩ := encodeBytes_encode i
  ⟨instr?_encode i hwf, bs, hbs, decodeBytes_encodeBytes hbs⟩

/-- Settles O53: by the equation of each word's operation code, and by the parts of each frame. -/
theorem specWordsDecode : Obligations.SpecWordsDecode :=
  ⟨by decide, by decide, by decide, decodeCommand_setf rfl, decodeCommand_wrreg rfl, decodeCommand_reservedF rfl,
    by decide⟩

end Sys2Proof.Machine

/-! PROOFS. The configuration's constraints (R4), the flags of the byte with only bit 0 set (R117), what the pseudo-operations expand to (R72, R135), and the pending view after a named setter (R69, R101, R109). -/

namespace Sys2Proof.Machine

/-! ## Legal configurations (R4) -/

theorem distinctAddrs_iff (es : List ShadowEntry) : distinctAddrs es = true ↔ (es.map (·.addr)).Nodup :=
  ⟨distinctAddrs_nodup, nodup_distinctAddrs es⟩

/-- Settles O49: the check is the conjunction of the constraints. -/
theorem legalConfigurationMeetsConstraints : Obligations.LegalConfigurationMeetsConstraints := by
  intro cfg
  simp only [cfgOk, statusPosOk, fieldRowOk, Bool.and_eq_true, decide_eq_true_eq, bne_iff_ne, ne_eq,
    List.all_eq_true, distinctAddrs_iff, and_assoc]

/-! ## The reset flag (R117) -/

/-- The byte with only bit 0 set shows none of the flags at a legal position but `reset`. -/
theorem statusFlags_one {cfg : Cfg} (hc : cfgOk cfg = true) : statusFlags cfg 0x01#8 = 0b0001#4 := by
  have hclear : ∀ p : Nat, 1 ≤ p ∧ p ≤ 7 → (0x01#8).getLsbD p = false := by
    rintro p ⟨hlo, hhi⟩
    interval_cases p <;> rfl
  obtain ⟨herror, hotw, hstandstill, _⟩ := (legalConfigurationMeetsConstraints cfg).1 hc
  simp only [statusFlags, decodeStatus, hclear _ herror, hclear _ hotw, hclear _ hstandstill]
  rfl

/-- The four flag positions of a legal configuration are distinct bits of a byte (R4). -/
theorem cfgOk_positions {cfg : Cfg} (hc : cfgOk cfg = true) :
    [0, cfg.statusBitDriverError, cfg.statusBitOtw, cfg.statusBitStandstill].Nodup ∧
    ∀ p ∈ [0, cfg.statusBitDriverError, cfg.statusBitOtw, cfg.statusBitStandstill], p < 8 := by
  obtain ⟨herror, hotw, hstandstill, heo, hes, hos, _⟩ := (legalConfigurationMeetsConstraints cfg).1 hc
  refine ⟨?_, fun p hp => ?_⟩
  · simp
    omega
  · simp only [List.mem_cons, List.not_mem_nil, or_false] at hp
    omega

/-- Settles O6: every flag is the byte's bit at its position, and the positions of a legal configuration are apart. -/
theorem resetFlagStandsAlone : Obligations.ResetFlagStandsAlone := by
  intro s hc
  obtain ⟨hdistinct, hbyte⟩ := cfgOk_positions hc
  refine ⟨?_, 0, _, _, _, rfl, rfl, rfl, rfl, hdistinct, hbyte, fun sb => stdecShowsFlags sb s⟩
  rw [exec_stdec, statusFlags_one hc]
  rfl

/-! ## Pseudo-operations (R72, R135) -/

/-- A named setter exists exactly for an `rw` field of a shadowed register (R72, R104). -/
theorem expandPseudo_setfld_ne_none_iff (cfg : Cfg) (name : String) (val : Nat) :
    expandPseudo cfg (.setfld name val) ≠ none ↔ ∃ row, fieldRow? cfg name = some row ∧ row.access = .rw ∧
      shadowed cfg (row.addr.setWidth 8) = true := by
  cases hrow : fieldRow? cfg name with
  | none => simp [expandPseudo, expandSetter, hrow]
  | some row => simp [expandPseudo, expandSetter, hrow]

/-- A getter exists exactly for a field (R72). -/
theorem expandPseudo_getfld_ne_none_iff (cfg : Cfg) (name : String) (v : Word) :
    expandPseudo cfg (.getfld name v) ≠ none ↔ ∃ row, fieldRow? cfg name = some row := by
  cases hrow : fieldRow? cfg name with
  | none => simp [expandPseudo, hrow]
  | some row => simp [expandPseudo, hrow]

/-- Settles O57: each expansion is the one the table gives, and the two conditional ones exist as said. -/
theorem pseudoOperationsExpand : Obligations.PseudoOperationsExpand := fun cfg =>
  ⟨rfl, rfl, rfl, rfl, rfl, rfl, fun _ => rfl, expandPseudo_setfld_ne_none_iff cfg,
    expandPseudo_getfld_ne_none_iff cfg⟩

/-! ## The pending view after a named setter -/

/-- The pending view of a patched cell: the new bits under the mask, the view as it was elsewhere. -/
theorem ShadowCell.merged_patch_getLsbD (m b : Word) (c : ShadowCell) {i : Nat} (hi : i < 32) :
    (c.patch m b).merged.getLsbD i = if m.getLsbD i then b.getLsbD i else c.merged.getLsbD i := by
  simp only [ShadowCell.merged, ShadowCell.patch_sh, ShadowCell.patch_pm, ShadowCell.patch_pv,
    BitVec.getLsbD_or, BitVec.getLsbD_and, BitVec.getLsbD_not, hi, decide_true, Bool.true_and]
  cases m.getLsbD i <;> simp

/-- An operation that a named setter expands to is the `SETF` of the field (R69, R72). -/
theorem setf_of_expandPseudo_setfld {cfg : Cfg} {name : String} {val : Nat} {row : FieldRow} {i : Instr}
    (hrow : fieldRow? cfg name = some row) (h : expandPseudo cfg (.setfld name val) = some (.operation i)) :
    i = .setf (row.addr.setWidth 8) (fieldMask row.lo row.width) (fieldBits row.lo row.width val) := by
  obtain ⟨row', hrow', hrw, hk⟩ := (expandPseudo_setfld_ne_none_iff cfg name val).1 (by simp [h])
  obtain rfl : row = row' := Option.some.inj (hrow.symm.trans hrow')
  rw [expandPseudo_setfld hrow hrw hk] at h
  cases h
  rfl

/-- The field of a word whose bits under the field's mask are the new value's is the value, cut to the field's width. -/
theorem fieldGet_toNat_of_bits {lo w val : Nat} {v : Word} (hle : lo + w ≤ 32)
    (hv : ∀ j < 32, lo ≤ j → j < lo + w → v.getLsbD j = val.testBit (j - lo)) :
    (fieldGet lo w v).toNat = val % 2 ^ w := by
  apply Nat.eq_of_testBit_eq
  intro i
  rw [BitVec.testBit_toNat, fieldGet_getLsbD hle, Nat.testBit_mod_two_pow]
  by_cases hi : i < w
  · rw [hv (lo + i) (by omega) (by omega) (by omega), Nat.add_sub_cancel_left]
  · simp [hi]

/-- A cell changed by `SETF` stands in the file after it. -/
theorem mem_execOr_setf {s : State} {x : ShadowCell} (hs : s.FileShape) (hx : x ∈ s.rab.cells) (m b : Word) :
    x.patch m b ∈ (execOr (.setf (x.addr.setWidth 8) m b) s).rab.cells := by
  rw [← execOr_eq (exec_setf_of_cell? (hs.cell?_of_mem hx) m b)]
  exact List.mem_map.2 ⟨x, hx, if_pos ((x.named_iff _).2 rfl)⟩

/-- Settles O56: bit by bit, the view under the field's mask is the value's and elsewhere as it was. -/
theorem setterThenViewShowsField : Obligations.SetterThenViewShowsField := by
  intro s name val row i x hs hrow hexp hx haddr
  obtain rfl := setf_of_expandPseudo_setfld hrow hexp
  rw [← haddr]
  have hview : ∀ j < 32, (x.patch (fieldMask row.lo row.width) (fieldBits row.lo row.width val)).merged.getLsbD j =
      if row.lo ≤ j ∧ j < row.lo + row.width then val.testBit (j - row.lo) else x.merged.getLsbD j := by
    intro j hj
    rw [ShadowCell.merged_patch_getLsbD _ _ _ hj, fieldBits_getLsbD hj, fieldMask_getLsbD hj]
    by_cases h : row.lo ≤ j ∧ j < row.lo + row.width <;> simp [h]
  refine ⟨_, mem_execOr_setf hs hx _ _, rfl, fieldGet_toNat_of_bits (fieldRow?_le hs.1 hrow) fun j hj hlo hhi => ?_,
    fun j hj hout => ?_⟩
  · rw [hview j hj, if_pos ⟨hlo, hhi⟩]
  · rw [hview j hj, if_neg hout]

end Sys2Proof.Machine

/-! PROOFS. Exchanges and the reference device (41_transport_exchange.md, 20_memory.md, 92_eei_decisions.md D18): what one exchange records and binds (R46, R48), what the device holds after a datagram, and what a read then returns (R127). -/

namespace Sys2Proof.Machine

/-! ## One exchange -/

/-- Settles O27: by the environment's reply. -/
theorem xchgLatchesStatusOrRaises : Obligations.XchgLatchesStatusOrRaises := by
  refine fun c s go => ⟨fun r hr => ?_, fun hr => ?_⟩
  · rw [State.xchg_ok go hr, State.exchange_of_ok c hr]
    rfl
  · rw [State.xchg_fault go hr, State.exchange_failed (by simp [hr])]
    rfl

/-- Settles O28: the record is one entry longer, the binding follows the reply, the reply follows the script. -/
theorem exchangeIsRecordedAndBound : Obligations.ExchangeIsRecordedAndBound := by
  refine fun c e => ⟨rfl, fun r hr => (Env.exchange_ok hr).2, fun hr => (Env.exchange_failed hr).2,
    fun hd hne => ?_, fun d r rest hd ha => Env.reply_device hd (Env.draw_cons ha)⟩
  obtain ⟨x, rest, ha⟩ := List.exists_cons_of_ne_nil hne
  rw [Env.reply_oracle hd, Env.draw_cons ha, ha, List.head?_cons]

/-! ## What the device holds -/

/-- What is read from the attached device. -/
theorem State.devRead_some {s : State} {d : RefDev} (h : s.env.device = some d) (a : Addr) :
    s.devRead a = d.dev.read a.toNat := by
  simp only [State.devRead, h]

/-- The same device reads the same. -/
theorem State.devRead_congr {s t : State} (h : t.env.device = s.env.device) (a : Addr) :
    t.devRead a = s.devRead a := by
  simp only [State.devRead, h]

/-- A read datagram changes no register. -/
theorem State.devRead_take_rd {s t : State} {a : Addr} {v : Word}
    (h : t.env.device = s.env.device.map (RefDev.take (.rd a v))) (b : Addr) : t.devRead b = s.devRead b := by
  cases hd : s.env.device with
  | none => exact State.devRead_congr (by simp [h, hd]) b
  | some d =>
    rw [State.devRead_some (h.trans (congrArg _ hd)), State.devRead_some hd]
    rfl

/-- A write datagram changes the register it names and no other. -/
theorem State.devRead_take_wr {s t : State} {d : RefDev} {a : Addr} {v : Word} (hs : s.DeviceInv)
    (hd : s.env.device = some d) (h : t.env.device = s.env.device.map (RefDev.take (.wr a v))) (b : Addr) :
    t.devRead b = if b = a then v else s.devRead b := by
  rw [State.devRead_some (h.trans (congrArg _ hd)), State.devRead_some hd]
  exact (Memory.read_write (hs d hd) b.toNat).trans (by simp only [BitVec.toNat_inj])

/-- A confirmed exchange of a write frame changes the register it addresses and no other. -/
theorem State.devRead_exchange_write {s t : State} {d : RefDev} {r : Frame} {a : Byte} {v : Word}
    (hs : s.DeviceInv) (hd : s.env.device = some d) (hr : s.env.reply = .ok r)
    (ht : t.env = s.env.exchange (packFrame 1#1 a v)) (b : Addr) :
    t.devRead b = if b = a.setWidth 7 then v else s.devRead b :=
  State.devRead_take_wr hs hd (by rw [ht, (Env.exchange_ok hr).1, decodeFrame_write]) b

/-- A confirmed exchange of a read frame changes no register. -/
theorem State.devRead_exchange_read {s t : State} {r : Frame} {a : Byte} (hr : s.env.reply = .ok r)
    (ht : t.env = s.env.exchange (packFrame 0#1 a 0#32)) (b : Addr) : t.devRead b = s.devRead b :=
  State.devRead_take_rd (by rw [ht, (Env.exchange_ok hr).1, decodeFrame_read]) b

/-! ## The wire datagrams (R82) -/

/-- Settles O25: the device latches the register, and only the device and the binding change. -/
theorem rdDatagramPresentsRegister : Obligations.RdDatagramPresentsRegister := by
  intro a v s c hc
  have hframe : packFrame 0#1 (a.setWidth 8) v = c :=
    (packFrame_of_bytes ((read_byte0 _).trans (maskAddr_setWidth a)) hc).symm
  refine ⟨_, rfl, congrArg some hframe, fun d hd => ?_, fun hd => congrArg (Option.map _) hd, State.devRead_take_rd rfl, rfl⟩
  rw [State.devRead_some hd, Env.take_device, hd]
  rfl

/-- Settles O26: the device stores and latches the value, and only the device and the binding change. -/
theorem wrDatagramStoresRegister : Obligations.WrDatagramStoresRegister := by
  intro a v s c hs hc
  have hframe : packFrame 1#1 (a.setWidth 8) v = c := (eq_packFrame_write hc).symm
  exact ⟨_, rfl, congrArg some hframe,
    fun d hd => ⟨d.take (.wr a v), congrArg (Option.map _) hd, rfl, State.devRead_take_wr hs hd rfl⟩,
    fun hd => congrArg (Option.map _) hd, rfl⟩

/-! ## `RDREG` (R127) -/

/-- The bytes of a read's frame: the masked address and the value 0 (R60, R126). -/
theorem frameBytes_read (a : Byte) : frameBytes (packFrame 0#1 a 0#32) = [a &&& 0x7F#8, 0, 0, 0, 0] := by
  rw [packFrame, frameBytes_joinFrame, read_byte0]
  rfl

/-- Settles O10: the script gives both replies, and the first exchange binds the second response. -/
theorem readDecodedFromSecondResponse : Obligations.ReadDecodedFromSecondResponse := by
  intro a s r1 r2 rest hd ha
  have h1 : s.env.reply = .ok r1 := (Env.reply_oracle hd).trans (Env.draw_cons ha)
  obtain ⟨hdevice, hbound⟩ := Env.exchange_ok (c := packFrame 0#1 a 0#32) h1
  have h2 : (s.env.exchange (packFrame 0#1 a 0#32)).reply = .ok r2 :=
    (Env.reply_oracle (by rw [hdevice, hd]; rfl)).trans (Env.draw_cons (by rw [Env.exchange_answers, ha]; rfl))
  exact ⟨_, packFrame 0#1 a 0#32, _, _, rdregReturnsSecondResponse a s _ r1 r2 (frameBytes_read a) h1 h2,
    rfl, rfl, frameBytes_read a, rfl, rfl, hbound, rfl⟩

/-- Settles O11: the first exchange latches the register, and the second response carries the latch. -/
theorem rdregOnReferenceDevice : Obligations.RdregOnReferenceDevice := by
  intro a s d r1 r2 rest hd ha
  have h1 := Env.reply_device hd (Env.draw_cons ha)
  have hlatched : (s.exchange (packFrame 0#1 a 0#32)).env.device =
      some { d with latch := s.devRead (a.setWidth 7) } := by
    rw [State.exchange_env, (Env.exchange_ok h1).1, hd, decodeFrame_read, State.devRead_some hd]
    rfl
  have h2 := Env.reply_device hlatched (Env.draw_cons (a := .ok r2) (rest := rest) (by simp [ha]))
  refine ⟨_, rdregReturnsSecondResponse a s _ _ _ (frameBytes_read a) h1 h2, ?_, fun b => ?_⟩
  · exact congrArg (fun x => ({ kind := .ok, data := x } : Result) :: s.results) (frameData_joinFrame _ _)
  · exact (State.devRead_exchange_read (s := s.exchange (packFrame 0#1 a 0#32)) h2 rfl b).trans
      (State.devRead_exchange_read (s := s) h1 rfl b)

/-! ## `WRREG` and `UPD` on the reference device -/

/-- The bytes of a write's frame (R60, R130). -/
theorem frameBytes_write (a : Byte) (v : Word) :
    frameBytes (packFrame 1#1 a v) = bytesWith (0x80#8 ||| (a &&& 0x7F#8)) v := by
  rw [packFrame, frameBytes_joinFrame, write_byte0]
  rfl

/-- A confirmed `WRREG` leaves the environment its one exchange leaves. -/
theorem exec_wrreg_env {a : Byte} {s : State} {r : Frame} (hs : s.FileShape) (v : Word)
    (hn : ¬(shadowed s.cfg (maskAddr a) = true ∧ s.cfg.rawWrite = .refuse)) (hr : s.env.reply = .ok r) :
    ∃ t, exec (.wrreg a v) s = .next t ∧ t.env = s.env.exchange (packFrame 1#1 a v) :=
  have ⟨_, hwrite⟩ := wrregWritesOnce a v s _ hs (frameBytes_write a v)
  ⟨_, (hwrite hn).1 r hr, rfl⟩

/-- Settles O13: the write stores the value in the device, and the read returns what the device then holds. -/
theorem writeThenReadOnReferenceDevice : Obligations.WriteThenReadOnReferenceDevice := by
  intro a v s d r1 r2 r3 rest hshape hs hn hd ha
  have h1 := Env.reply_device hd (Env.draw_cons ha)
  obtain ⟨t, hwrite, henv⟩ := exec_wrreg_env hshape v hn h1
  have hstored := State.devRead_exchange_write hs hd h1 henv
  have hdevice : t.env.device = some (d.take (decodeFrame (packFrame 1#1 a v))) := by
    rw [henv, (Env.exchange_ok h1).1, hd]
    rfl
  obtain ⟨u, hread, hresult, hregs⟩ := rdregOnReferenceDevice a t _ r2 r3 rest hdevice (by simp [henv, ha])
  rw [hstored, if_pos rfl] at hresult
  exact ⟨t, u, hwrite, hread, hresult, fun b => (hregs b).trans (hstored b)⟩

/-! ## Operations without an exchange (R36) -/

/-- `ENABLE` and `DISABLE` do not reach the device. -/
theorem State.drivePin_env (on : Bool) (s : State) :
    (s.drivePin on).env.trace = s.env.trace ∧ (s.drivePin on).env.device = s.env.device ∧
    (s.drivePin on).env.bound = s.env.bound := by
  rcases State.drivePin_cases on s with ⟨_, _, e⟩ | ⟨_, _, e⟩ | ⟨_, e⟩ <;> rw [e] <;> exact ⟨rfl, rfl, rfl⟩

/-- A host operation other than `RDREG`, `WRREG` and `UPD` makes no exchange and does not reach the device (R36). -/
theorem execOr_env_of_no_exchange {i : Instr} (hi : isHostOp i = true) (hcount : exchangeCount i = 0) (s : State) :
    (execOr i s).env.trace = s.env.trace ∧ (execOr i s).env.device = s.env.device ∧
    (execOr i s).env.bound = s.env.bound := by
  cases i
  case rd | wr => cases hi
  case rdreg | wrreg | upd => cases hcount
  case setf k m b => rcases execOr_setf k m b s with ⟨_, e⟩ | ⟨_, _, e⟩ <;> rw [e] <;> exact ⟨rfl, rfl, rfl⟩
  case getsh k => rcases execOr_getsh k s with ⟨_, e⟩ | ⟨_, _, e⟩ <;> rw [e] <;> exact ⟨rfl, rfl, rfl⟩
  case enable => exact s.drivePin_env true
  case disable => exact s.drivePin_env false
  -- the operations left return a result and do nothing else
  all_goals exact ⟨rfl, rfl, rfl⟩

/-- Settles O33: each write is one confirmed exchange of its frame; without an exchange the device is not reached. -/
theorem deviceStoresOnlyAtAddress : Obligations.DeviceStoresOnlyAtAddress := by
  refine fun s d r hshape hs hd hr => ⟨fun a v hn => ?_, fun x hx => ?_, fun i t hi hcount ht b => ?_⟩
  · obtain ⟨t, ht, henv⟩ := exec_wrreg_env hshape v hn hr
    refine ⟨t, ht, fun b => ?_⟩
    rw [State.devRead_exchange_write hs hd hr henv b]
    simp only [eq_maskAddr_iff, eq_comm]
  · refine ⟨_, exec_upd_ok (hshape.cell?_of_mem hx) hr, fun b => ?_⟩
    rw [State.devRead_exchange_write hs hd hr rfl b, Laws.RoundTrip.addr_round_trip]
  · obtain rfl := execOr_eq ht
    obtain ⟨_, hdevice, _⟩ := execOr_env_of_no_exchange hi hcount s
    exact State.devRead_congr hdevice b

end Sys2Proof.Machine

/-! PROOFS. Runs of the Shadow Register Store's operations (42_shadow_store.md): setters composed (R102), a flush with nothing pending (R106), setters then a flush (R108), and the bits no setter covers (R110). -/

namespace Sys2Proof.Machine

/-! ## Changes of cells, one after another -/

/-- A change of a cell that is not there changes nothing. -/
theorem Rab.updateCell_of_none {r : Rab} {k : Byte} (h : r.cell? k = none) (f : ShadowCell → ShadowCell) :
    r.updateCell k f = r := by
  have hid : r.cells.map (fun c => if c.addr.setWidth 8 = k then f c else c) = r.cells :=
    (List.map_congr_left fun c hc => if_neg (Rab.cell?_none h c hc)).trans (List.map_id' _)
  rw [Rab.updateCell_eq, hid]

/-- Two changes of one cell are one change. -/
theorem Rab.updateCell_updateCell (r : Rab) (k : Byte) {f : ShadowCell → ShadowCell} (g : ShadowCell → ShadowCell)
    (hf : ∀ c, (f c).addr = c.addr) :
    (r.updateCell k f).updateCell k g = r.updateCell k fun c => g (f c) := by
  simp only [Rab.updateCell_eq, List.map_map]
  congr 2
  funext c
  by_cases hk : c.addr.setWidth 8 = k <;> simp [hf, hk]

/-- Changes of different cells commute. -/
theorem Rab.updateCell_comm (r : Rab) {k k' : Byte} (hne : k' ≠ k) {f g : ShadowCell → ShadowCell}
    (hf : ∀ c, (f c).addr = c.addr) (hg : ∀ c, (g c).addr = c.addr) :
    (r.updateCell k f).updateCell k' g = (r.updateCell k' g).updateCell k f := by
  simp only [Rab.updateCell_eq, List.map_map]
  congr 2
  funext c
  by_cases hk : c.addr.setWidth 8 = k
  · simp [hf, hk, hne.symm]
  · by_cases hk' : c.addr.setWidth 8 = k' <;> simp [hg, hk, hk', hne]

/-- What `SETF` does to the block: the cell its index names, if there is one, is patched (R101). -/
theorem execOr_setf_rab (k : Byte) (m b : Word) (s : State) :
    (execOr (.setf k m b) s).rab = s.rab.updateCell k (ShadowCell.patch m b) := by
  rcases execOr_setf k m b s with ⟨hn, e⟩ | ⟨_, _, e⟩ <;> rw [e]
  · exact (Rab.updateCell_of_none hn _).symm
  · rfl

/-- `SETF` makes no exchange and drives no pin. -/
theorem execOr_setf_env (k : Byte) (m b : Word) (s : State) : (execOr (.setf k m b) s).env = s.env := by
  rcases execOr_setf k m b s with ⟨_, e⟩ | ⟨_, _, e⟩ <;> rw [e] <;> rfl

/-! ## Setters compose (R102) -/

/-- Patches with disjoint masks commute. -/
theorem ShadowCell.patch_comm {m1 m2 : Word} (h : m1 &&& m2 = 0) (b1 b2 : Word) (c : ShadowCell) :
    (c.patch m1 b1).patch m2 b2 = (c.patch m2 b2).patch m1 b1 := by
  have hpv : (((c.pv &&& ~~~m1) ||| (b1 &&& m1)) &&& ~~~m2) ||| (b2 &&& m2) =
      (((c.pv &&& ~~~m2) ||| (b2 &&& m2)) &&& ~~~m1) ||| (b1 &&& m1) := by
    apply BitVec.eq_of_getLsbD_eq
    intro i hi
    have hdisjoint := congrArg (BitVec.getLsbD · i) h
    simp only [BitVec.getLsbD_and, BitVec.getLsbD_or, BitVec.getLsbD_not, hi, decide_true, Bool.true_and]
      at hdisjoint ⊢
    cases h1 : m1.getLsbD i <;> cases h2 : m2.getLsbD i <;> simp_all
  have hpm : c.pm ||| m1 ||| m2 = c.pm ||| m2 ||| m1 := by
    rw [BitVec.or_assoc, BitVec.or_comm m1, ← BitVec.or_assoc]
  simp only [ShadowCell.patch, hpv, hpm]

/-- A patch recorded twice is recorded once. -/
theorem ShadowCell.patch_idem (m b : Word) (c : ShadowCell) : (c.patch m b).patch m b = c.patch m b := by
  have hpv : (((c.pv &&& ~~~m) ||| (b &&& m)) &&& ~~~m) ||| (b &&& m) = (c.pv &&& ~~~m) ||| (b &&& m) := by
    apply BitVec.eq_of_getLsbD_eq
    intro i hi
    simp only [BitVec.getLsbD_and, BitVec.getLsbD_or, BitVec.getLsbD_not, hi, decide_true, Bool.true_and]
    cases m.getLsbD i <;> simp
  simp only [ShadowCell.patch, hpv, BitVec.or_assoc, BitVec.or_self]

/-- Two setters of one register patch its cell twice. -/
theorem runOps_setf_setf_rab (k : Byte) (m1 b1 m2 b2 : Word) (s : State) :
    (runOps [.setf k m1 b1, .setf k m2 b2] s).rab =
      s.rab.updateCell k fun c => (c.patch m1 b1).patch m2 b2 := by
  simp only [runOps, List.foldl_cons, List.foldl_nil, execOr_setf_rab]
  exact Rab.updateCell_updateCell _ k _ (ShadowCell.patch_addr m1 b1)

/-- Settles O15: setters are patches of cells, which compose, commute and repeat as patches do. -/
theorem settersCompose : Obligations.SettersCompose := by
  intro k m1 b1 m2 b2 s _ _
  refine ⟨?_, fun hdisjoint => ?_, fun k' hne => ?_, ?_⟩
  · rw [runOps_setf_setf_rab, Rab.updateCell_eq]
    rfl
  · simp only [runOps_setf_setf_rab, ShadowCell.patch_comm hdisjoint]
  · simp only [runOps, List.foldl_cons, List.foldl_nil, execOr_setf_rab]
    exact Rab.updateCell_comm _ hne (ShadowCell.patch_addr m1 b1) (ShadowCell.patch_addr m2 b2)
  · simp only [runOps_setf_setf_rab, ShadowCell.patch_idem]
    exact (execOr_setf_rab k m1 b1 s).symm

/-! ## Flushes (R106, R108) -/

/-- Where `PM` is 0 so is `PV`: a flush would send the shadow, and committing it changes nothing. -/
theorem ShadowCell.nothing_pending {x : ShadowCell} (h : x.pv &&& ~~~x.pm = 0) (hpm : x.pm = 0) :
    x.merged = x.sh ∧ x.commit x.sh = x := by
  obtain ⟨addr, sh, pm, pv⟩ := x
  obtain rfl : pm = 0#32 := hpm
  rw [BitVec.not_zero] at h
  obtain rfl : pv = 0#32 := BitVec.and_allOnes.symm.trans h
  refine ⟨?_, rfl⟩
  rw [ShadowCell.merged, BitVec.not_zero, BitVec.and_allOnes, BitVec.or_zero]

/-- Settles O17: the word sent is the shadow, and committing it changes no cell. -/
theorem updWithNothingPendingRewritesShadow : Obligations.UpdWithNothingPendingRewritesShadow := by
  intro s x r hs hpatch hx hpm hr
  obtain ⟨hmerged, hcommit⟩ := ShadowCell.nothing_pending (hpatch x hx) hpm
  refine ⟨_, _, exec_upd_ok (hs.cell?_of_mem hx) hr, rfl, ?_, ?_⟩
  · rw [decodeFrame_write, Laws.RoundTrip.addr_round_trip, hmerged]
  · refine (List.map_congr_left fun y hy => ?_).trans (List.map_id' _)
    split
    · next hk =>
      obtain rfl := hs.cell_eq hy hx (setWidth_addr_injective hk)
      rw [hmerged, hcommit]
    · rfl

/-- A confirmed `UPD` adds one exchange to the record: the write of the merged word. -/
theorem execOr_upd_trace {s : State} {x : ShadowCell} {r : Frame} (hs : s.FileShape) (hx : x ∈ s.rab.cells)
    (hr : s.env.reply = .ok r) :
    ∃ e : ExchangeRecord, (execOr (.upd (x.addr.setWidth 8)) s).env.trace = e :: s.env.trace ∧
      decodeFrame e.sent = .wr x.addr x.merged := by
  rw [← execOr_eq (exec_upd_ok (hs.cell?_of_mem hx) hr)]
  exact ⟨_, rfl, by rw [decodeFrame_write, Laws.RoundTrip.addr_round_trip]⟩

/-- The pending view of a cell patched twice: the later bits under the later mask, the earlier ones under what is left of the earlier mask, the view as it was elsewhere. -/
theorem ShadowCell.merged_patch_patch (mA bA mB bB : Word) (x : ShadowCell) :
    ((x.patch mA bA).patch mB bB).merged &&& mB = bB &&& mB ∧
    ((x.patch mA bA).patch mB bB).merged &&& (mA &&& ~~~mB) = bA &&& mA &&& ~~~mB ∧
    ((x.patch mA bA).patch mB bB).merged &&& ~~~(mA ||| mB) = x.merged &&& ~~~(mA ||| mB) := by
  refine ⟨?_, ?_, ?_⟩
  -- each is decided bit by bit, by which of the two masks covers the bit
  all_goals
    apply BitVec.eq_of_getLsbD_eq
    intro i hi
    simp only [BitVec.getLsbD_and, BitVec.getLsbD_or, BitVec.getLsbD_not, hi, decide_true, Bool.true_and,
      ShadowCell.merged_patch_getLsbD _ _ _ hi]
    cases mA.getLsbD i <;> cases mB.getLsbD i <;> simp

/-- Settles O18: the setters patch the cell twice, and the flush sends its pending view. -/
theorem writeBackHasBothFields : Obligations.WriteBackHasBothFields := by
  intro s x mA bA mB bB r hs hpatch hx hpm hr
  have hshape := (hs.execOr (.setf (x.addr.setWidth 8) mA bA)).execOr (.setf (x.addr.setWidth 8) mB bB)
  have hmem := mem_execOr_setf (hs.execOr _) (mem_execOr_setf hs hx mA bA) mB bB
  obtain ⟨e, htrace, hsent⟩ := execOr_upd_trace hshape hmem (by simpa only [execOr_setf_env] using hr)
  have hview := x.merged_patch_patch mA bA mB bB
  rw [(ShadowCell.nothing_pending (hpatch x hx) hpm).1] at hview
  simp only [execOr_setf_env] at htrace
  exact ⟨e, _, htrace, hsent, hview⟩

/-! ## Bits no setter covers (R110) -/

/-- Two words agree on every bit a mask leaves out. -/
def AgreeOff (m v w : Word) : Prop := ∀ i < 32, m.getLsbD i = false → v.getLsbD i = w.getLsbD i

theorem AgreeOff.and_not_eq {m v w : Word} (h : AgreeOff m v w) : v &&& ~~~m = w &&& ~~~m := by
  apply BitVec.eq_of_getLsbD_eq
  intro i hi
  rw [BitVec.getLsbD_and, BitVec.getLsbD_and, BitVec.getLsbD_not]
  cases hm : m.getLsbD i with
  | false => rw [h i hi hm]
  | true => simp

/-- On every bit a mask leaves out, the cell's shadow is a word's and nothing is pending. -/
def ShadowCell.UntouchedOff (m w : Word) (c : ShadowCell) : Prop :=
  AgreeOff m c.sh w ∧ AgreeOff m c.pm 0 ∧ AgreeOff m c.pv 0

/-- Such a cell's pending view is the word there. -/
theorem ShadowCell.UntouchedOff.merged {m w : Word} {c : ShadowCell} (h : c.UntouchedOff m w) :
    AgreeOff m c.merged w := by
  obtain ⟨hsh, hpm, hpv⟩ := h
  intro i hi hm
  simp only [ShadowCell.merged, BitVec.getLsbD_or, BitVec.getLsbD_and, BitVec.getLsbD_not, hsh i hi hm,
    hpm i hi hm, hpv i hi hm]
  simp [hi]

/-- A patch under the mask leaves the other bits untouched. -/
theorem ShadowCell.UntouchedOff.patch {m w m' : Word} {c : ShadowCell} (h : c.UntouchedOff m w)
    (hm' : AgreeOff m m' 0) (b : Word) : (c.patch m' b).UntouchedOff m w := by
  obtain ⟨hsh, hpm, hpv⟩ := h
  refine ⟨hsh, fun i hi hm => ?_, fun i hi hm => ?_⟩
  · simp [hpm i hi hm, hm' i hi hm]
  · simp [hpv i hi hm, hm' i hi hm]

/-- Every cell of register k is untouched off the mask, and so is every word the record has as sent to k. -/
def State.SentOff (k : Addr) (m w : Word) (s : State) : Prop :=
  (∀ c ∈ s.rab.cells, c.addr = k → c.UntouchedOff m w) ∧
  ∀ x ∈ s.env.trace, ∀ v, decodeFrame x.sent = .wr k v → AgreeOff m v w

/-- `SETF` keeps it, if its mask lies under the mask wherever it names register k. -/
theorem State.SentOff.setf {k : Addr} {m w : Word} {s : State} (h : s.SentOff k m w) (k' : Byte) (m' b : Word)
    (hm' : k' = k.setWidth 8 → AgreeOff m m' 0) : (execOr (.setf k' m' b) s).SentOff k m w := by
  obtain ⟨hcells, htrace⟩ := h
  refine ⟨fun y hy hk => ?_, by rwa [execOr_setf_env]⟩
  rw [execOr_setf_rab] at hy
  rcases Rab.mem_updateCell hy with ⟨c, hc, ha, rfl⟩ | ⟨hm, _⟩
  · have hck : c.addr = k := hk
    exact (hcells c hc hck).patch (hm' (by rw [← ha, hck])) b
  · exact hcells y hm hk

/-- The exchange of a flush keeps it: the word sent is a cell's pending view. -/
theorem State.SentOff.exchange_merged {k : Addr} {m w : Word} {s : State} (h : s.SentOff k m w) {x : ShadowCell}
    (hx : x ∈ s.rab.cells) : (s.exchange (packFrame 1#1 (x.addr.setWidth 8) x.merged)).SentOff k m w := by
  obtain ⟨hcells, htrace⟩ := h
  refine ⟨hcells, fun e he v hv => ?_⟩
  rw [State.exchange_env, Env.exchange_trace] at he
  rcases List.mem_cons.1 he with rfl | he
  · rw [decodeFrame_write, Laws.RoundTrip.addr_round_trip] at hv
    injection hv with hk hv
    exact hv ▸ (hcells x hx hk).merged
  · exact htrace e he v hv

/-- `UPD` keeps it: the word sent is the pending view, and it is what a response commits. -/
theorem State.SentOff.upd {k : Addr} {m w : Word} {s : State} (h : s.SentOff k m w) (k' : Byte) :
    (execOr (.upd k') s).SentOff k m w := by
  rcases execOr_upd k' s with ⟨_, e⟩ | ⟨x, hx, e⟩ <;> rw [e]
  · exact h
  obtain ⟨hmem, rfl⟩ := Rab.cell?_some hx
  have hexchange := h.exchange_merged hmem
  rcases State.xchg_cases (packFrame 1#1 (x.addr.setWidth 8) x.merged) s _ with ⟨r, _, e⟩ | ⟨_, e⟩ | ⟨_, e⟩ <;>
    rw [e]
  · refine ⟨fun y hy hk => ?_, hexchange.2⟩
    rcases Rab.mem_updateCell hy with ⟨c, _, ha, rfl⟩ | ⟨hm, _⟩
    · have hxk : x.addr = k := (setWidth_addr_injective ha).symm.trans hk
      exact ⟨(h.1 x hmem hxk).merged, fun _ _ _ => rfl, fun _ _ _ => rfl⟩
    · exact h.1 y hm hk
  · exact hexchange
  · exact hexchange

/-- A setter of register k in a list covers its mask. -/
theorem agreeOff_coveredBits {k : Byte} {m b : Word} {is : List Instr} (h : .setf k m b ∈ is) :
    AgreeOff (coveredBits k is) m 0 := by
  intro i hi hcov
  induction is with
  | nil => cases h
  | cons j is ih =>
    have htail : (coveredBits k is).getLsbD i = false := by
      cases j
      case setf k' m' b' =>
        by_cases hk : k' = k
        · simp only [coveredBits, List.foldr_cons, hk, if_true, BitVec.getLsbD_or, Bool.or_eq_false_iff] at hcov
          exact hcov.2
        · simpa only [coveredBits, List.foldr_cons, hk, if_false] using hcov
      all_goals exact hcov
    rcases List.mem_cons.1 h with rfl | h
    · simp only [coveredBits, List.foldr_cons, if_true, BitVec.getLsbD_or, Bool.or_eq_false_iff] at hcov
      simp [hcov.1]
    · exact ih h htail

/-- A run of `SETF` and `UPD` keeps it, if every setter of register k lies under the mask. -/
theorem State.SentOff.runOps {k : Addr} {m w : Word} {is : List Instr} (hops : ∀ i ∈ is, isShadowOp i = true)
    (hmask : ∀ m' b, .setf (k.setWidth 8) m' b ∈ is → AgreeOff m m' 0) {s : State} (h : s.SentOff k m w) :
    (runOps is s).SentOff k m w := by
  induction is generalizing s with
  | nil => exact h
  | cons i is ih =>
    refine ih (fun j hj => hops j (List.mem_cons_of_mem i hj))
      (fun m' b hm => hmask m' b (List.mem_cons_of_mem i hm)) ?_
    have hop := hops i List.mem_cons_self
    cases i
    case setf k' m' b => exact h.setf k' m' b fun hk => hmask m' b (hk ▸ List.mem_cons_self)
    case upd k' => exact h.upd k'
    all_goals cases hop

/-- Settles O19: at reset the bits are `SHADOW_RESET`'s with nothing pending, and no operation of the run touches them. -/
theorem siblingBitsKeepResetValue : Obligations.SiblingBitsKeepResetValue := by
  intro cfg e is k v x hc htrace hops hx hsent
  have hreset : State.SentOff k (coveredBits (k.setWidth 8) is) (shadowReset cfg k)
      { State.construct cfg with env := e } := by
    refine ⟨?_, by simp [htrace]⟩
    rintro c hm rfl
    obtain ⟨hsh, hpm, hpv⟩ := Rab.construct_cell_values hc hm
    exact ⟨fun _ _ _ => by rw [hsh], fun _ _ _ => by rw [hpm], fun _ _ _ => by rw [hpv]⟩
  have hrun := hreset.runOps hops fun _ _ hm => agreeOff_coveredBits hm
  exact (hrun.2 x hx v hsent).and_not_eq

end Sys2Proof.Machine

/-! PROOFS. How a host operation runs and ends (60_exceptions.md, 20_memory.md, 70_reset_and_hazards.md): its exchanges and its one result (R28, R36, R150), what an error leaves alone (R153), the silent exchange (R190); which operation writes which cell (R15, R136); and what no operation reads (R22, R154). -/

namespace Sys2Proof.Machine

/-! ## The exchanges of an operation -/

/-- An operation that is not refused and drives no pin in vain runs from s to t with n exchanges to make: it ends with `OK` once they are made, or at the first that faults or never answers (R125, R151, R152, R190). -/
inductive ExchangeRun : Nat → State → State → Prop
  | done {s t : State} {r : Result} (hkind : r.kind = .ok) (hresults : t.results = r :: s.results)
      (hwaiting : t.waiting = s.waiting) (htrace : t.env.trace = s.env.trace) : ExchangeRun 0 s t
  | fault {s : State} (n : Nat) (c : Frame) (hreply : s.env.reply = .fault) :
      ExchangeRun (n + 1) s ((s.exchange c).raise .busError)
  | silence {s : State} (n : Nat) (c : Frame) (hreply : s.env.reply = .silence) :
      ExchangeRun (n + 1) s (s.exchange c).hang
  | exchanged {s t : State} {n : Nat} {c r : Frame} (hreply : s.env.reply = .ok r)
      (hrest : ExchangeRun n (s.exchange c) t) : ExchangeRun (n + 1) s t

/-- An operation that only returns a result with `OK`. -/
theorem ExchangeRun.respond (s : State) {r : Result} (hkind : r.kind = .ok) : ExchangeRun 0 s (s.respond r) :=
  .done hkind rfl rfl rfl

/-- `Xchg` makes one exchange more than what follows a response. -/
theorem ExchangeRun.xchg {s : State} {n : Nat} (c : Frame) {go : Frame → State → State}
    (hgo : ∀ r, ExchangeRun n (s.exchange c) (go r (s.exchange c))) : ExchangeRun (n + 1) s (s.xchg c go) := by
  rcases State.xchg_cases c s go with ⟨r, hr, e⟩ | ⟨hr, e⟩ | ⟨hr, e⟩ <;> rw [e]
  · exact .exchanged hr (hgo r)
  · exact .fault n c hr
  · exact .silence n c hr

/-- `RDREG` is one `Xchg` of the read's frame, then another (R126). -/
theorem execOr_rdreg_eq (a : Byte) (s : State) :
    execOr (.rdreg a) s = s.xchg (packFrame 0#1 a 0#32) fun _ s1 =>
      s1.xchg (packFrame 0#1 a 0#32) fun r2 s2 => s2.respond { kind := .ok, data := frameData r2 } := rfl

/-- What a host operation with n exchanges can do: be refused, fail at the pin driver, or run its exchanges. -/
def State.HostRun (n : Nat) (s t : State) : Prop :=
  t = s.raise .refused ∨ t = State.raise .pinError { s with env := s.env.pinWrite } ∨ ExchangeRun n s t

theorem State.drivePin_hostRun (on : Bool) (s : State) : s.HostRun 0 (s.drivePin on) := by
  rcases State.drivePin_cases on s with ⟨_, _, e⟩ | ⟨_, _, e⟩ | ⟨_, e⟩ <;> rw [e]
  · exact .inr (.inr (.done rfl rfl rfl rfl))
  · exact .inr (.inl rfl)
  · exact .inl rfl

/-- Every host operation runs so, with the exchanges R66 and R125 give it. -/
theorem execOr_hostRun {i : Instr} (hi : isHostOp i = true) (s : State) :
    s.HostRun (exchangeCount i) (execOr i s) := by
  cases i
  case rd | wr => cases hi
  case rdreg a =>
    rw [execOr_rdreg_eq]
    exact .inr (.inr (.xchg _ fun _ => .xchg _ fun _ => .respond _ rfl))
  case wrreg a v =>
    rcases execOr_wrreg a v s with ⟨_, _, _, e⟩ | ⟨_, e⟩ <;> rw [e]
    · exact .inl rfl
    · refine .inr (.inr (.xchg _ fun r => ?_))
      split
      · exact .done (r := dataPacket r) rfl rfl rfl rfl
      · exact .respond _ rfl
  case upd k =>
    rcases execOr_upd k s with ⟨_, e⟩ | ⟨_, _, e⟩ <;> rw [e]
    · exact .inl rfl
    · exact .inr (.inr (.xchg _ fun r => .done (r := dataPacket r) rfl rfl rfl rfl))
  case setf k m b =>
    rcases execOr_setf k m b s with ⟨_, e⟩ | ⟨_, _, e⟩ <;> rw [e]
    · exact .inl rfl
    · exact .inr (.inr (.done rfl rfl rfl rfl))
  case getsh k =>
    rcases execOr_getsh k s with ⟨_, e⟩ | ⟨_, _, e⟩ <;> rw [e]
    · exact .inl rfl
    · exact .inr (.inr (.respond s rfl))
  case enable => exact s.drivePin_hostRun true
  case disable => exact s.drivePin_hostRun false
  case enc | dec | stdec => exact .inr (.inr (.respond s rfl))
  case getst => exact .inr (.inr (.respond s (latchedStatus_kind _ _)))
  case reserved0 | reservedC | reservedD | reservedE | reservedF => exact .inl rfl

/-! ## The number of exchanges (R36) -/

/-- The record grows by at most n exchanges, and by n if the operation ends with `OK`. -/
theorem ExchangeRun.record {n : Nat} {s t : State} (h : ExchangeRun n s t) :
    ∃ new : List ExchangeRecord, t.env.trace = new ++ s.env.trace ∧ new.length ≤ n ∧
      (∀ r, t.results = r :: s.results → r.kind = .ok → new.length = n) := by
  induction h with
  | done _ _ _ htrace => exact ⟨[], htrace, Nat.le_refl 0, fun _ _ _ => rfl⟩
  | fault n c _ =>
    refine ⟨[_], rfl, by simp, fun r hr hok => ?_⟩
    obtain ⟨rfl, _⟩ := List.cons.inj hr
    cases hok
  | silence n c _ => exact ⟨[_], rfl, by simp, fun r hr _ => absurd hr.symm (List.cons_ne_self r _)⟩
  | exchanged _ _ ih =>
    obtain ⟨new, htrace, hle, hok⟩ := ih
    refine ⟨new ++ [_], htrace.trans (List.append_cons new _ _), by simpa using hle,
      fun r hr hkind => ?_⟩
    simpa using hok r hr hkind

/-- An error before any exchange leaves the record. -/
theorem record_of_early_error {s t : State} {k : Kind} (hk : k ≠ .ok) (htrace : t.env.trace = s.env.trace)
    (hresults : t.results = { kind := k } :: s.results) (n : Nat) :
    ∃ new : List ExchangeRecord, t.env.trace = new ++ s.env.trace ∧ new.length ≤ n ∧
      (∀ r, t.results = r :: s.results → r.kind = .ok → new.length = n) := by
  refine ⟨[], htrace, Nat.zero_le n, fun r hr hok => ?_⟩
  obtain ⟨rfl, _⟩ := List.cons.inj (hresults.symm.trans hr)
  exact absurd hok hk

/-- Settles O29: a refused operation and a failed pin make no exchange, every other host operation runs its exchanges. -/
theorem onlyAccessOperationsExchange : Obligations.OnlyAccessOperationsExchange := by
  intro i s t hi ht
  obtain rfl := execOr_eq ht
  refine ⟨fun hcount => execOr_env_of_no_exchange hi hcount s, ?_⟩
  rcases execOr_hostRun hi s with e | e | h
  · exact record_of_early_error (k := .refused) (by simp) (by rw [e]; rfl) (by rw [e]; rfl) _
  · exact record_of_early_error (k := .pinError) (by simp) (by rw [e]; rfl) (by rw [e]; rfl) _
  · exact h.record

/-! ## One result, or none (R28, R150) -/

/-- The operation returns one result, or its last exchange never answers and it is left waiting. -/
theorem ExchangeRun.one_result {n : Nat} {s t : State} (h : ExchangeRun n s t) :
    (t.waiting = s.waiting ∧ ∃ r, t.results = r :: s.results) ∨
    (t.waiting = true ∧ t.results = s.results ∧ ∃ x new, t.env.trace = x :: new ∧ x.answer = .silence) := by
  induction h with
  | done _ hresults hwaiting _ => exact .inl ⟨hwaiting, _, hresults⟩
  | fault _ _ _ => exact .inl ⟨rfl, _, rfl⟩
  | silence _ _ hreply => exact .inr ⟨rfl, rfl, _, _, rfl, hreply⟩
  | exchanged _ _ ih => exact ih

/-- Settles O37: no instruction looks at the inputs, and every way a host operation runs ends so. -/
theorem oneResultPerOperation : Obligations.OneResultPerOperation := by
  intro i s t hi ht
  obtain rfl := execOr_eq ht
  refine ⟨execOr_inputs i s, ?_⟩
  rcases execOr_hostRun hi s with e | e | h
  · rw [e]
    exact .inl ⟨rfl, _, rfl⟩
  · rw [e]
    exact .inl ⟨rfl, _, rfl⟩
  · exact h.one_result

/-! ## What an error leaves alone (R153, R156, R157) -/

/-- Exchanges that end with a result other than `OK` end with `BUS_ERROR` and leave the shadow file and the line. -/
theorem ExchangeRun.error {n : Nat} {s t : State} (h : ExchangeRun n s t) {r : Result} (hr : t.results = r :: s.results)
    (hne : r.kind ≠ .ok) : r.kind = .busError ∧ t.rab.cells = s.rab.cells ∧ t.rab.en = s.rab.en := by
  induction h with
  | done hkind hresults _ _ =>
    obtain ⟨rfl, _⟩ := List.cons.inj (hresults.symm.trans hr)
    exact absurd hkind hne
  | fault _ _ _ =>
    obtain ⟨rfl, _⟩ := List.cons.inj hr
    exact ⟨rfl, rfl, rfl⟩
  | silence _ _ _ => exact absurd hr.symm (List.cons_ne_self r _)
  | exchanged _ _ ih => exact ih hr

/-- A wire datagram returns nothing. -/
theorem execOr_results_of_wire {i : Instr} (hi : isHostOp i = false) (s : State) :
    (execOr i s).results = s.results := by
  cases i
  case rd | wr => rfl
  all_goals cases hi

/-- Settles O31: by the three ways a host operation runs; each fixes the kind an error can have. -/
theorem errorsLeaveShadowUntouched : Obligations.ErrorsLeaveShadowUntouched := by
  intro i s t r ht hr hne
  obtain rfl := execOr_eq ht
  cases hi : isHostOp i with
  | false => exact absurd (hr.symm.trans (execOr_results_of_wire hi s)) (List.cons_ne_self r _)
  | true =>
    rcases execOr_hostRun hi s with e | e | h
    · rw [e] at hr ⊢
      obtain ⟨rfl, _⟩ := List.cons.inj hr
      exact ⟨rfl, rfl, fun _ => State.raise_eq _ s, by simp⟩
    · rw [e] at hr ⊢
      obtain ⟨rfl, _⟩ := List.cons.inj hr
      exact ⟨rfl, rfl, by simp, fun _ => ⟨rfl, rfl, rfl⟩⟩
    · obtain ⟨hkind, hcells, hen⟩ := h.error hr hne
      exact ⟨hcells, hen, by simp [hkind], by simp [hkind]⟩

/-! ## The silent exchange (R190) -/

/-- A waiting machine is stuck until reset: a step looks at the reset port only, and a pulse of it recovers the block. -/
theorem State.stuckUntilReset_of_waiting {t : State} (hc : cfgOk t.cfg = true) (hrst : t.rst = false)
    (hwait : t.waiting = true) : t.StuckUntilReset := by
  refine ⟨by simp [State.cmdReady, hwait], fun xs hxs => ?_, fun rest => ?_⟩
  · simp [step, hc, State.cmdReady, hwait, (nextRst_none_iff xs).2 hxs, hrst]
  · have hrise := step_of_rst_presented (s := { t with inputs := .rst true :: .rst false :: rest }) hc rfl
    rw [State.driveRst_reset rfl] at hrise
    have hrelease := step_of_rst_presented
      (s := { ({ t with inputs := .rst false :: rest } : State).resetBlock with rst := true }) hc rfl
    rw [State.driveRst_reset rfl] at hrelease
    exact ⟨_, _, hrise, rfl, rfl, rfl, hrelease, rfl, rfl, rfl, rfl⟩

/-- `Xchg` that never answers leaves the block as it was, returns nothing and leaves the machine stuck. -/
theorem State.xchg_silence_stuck {s : State} (hc : cfgOk s.cfg = true) (hrst : s.rst = false)
    (hr : s.env.reply = .silence) (c : Frame) (go : Frame → State → State) :
    (s.xchg c go).rab = s.rab ∧ (s.xchg c go).results = s.results ∧ (s.xchg c go).StuckUntilReset := by
  rw [State.xchg_silence go hr, State.exchange_failed (by simp [hr])]
  exact ⟨rfl, rfl, State.stuckUntilReset_of_waiting hc hrst rfl⟩

/-- Settles O32: each operation begins with `Xchg`, and a read goes on with a second. -/
theorem silentExchangeHangsUntilReset : Obligations.SilentExchangeHangsUntilReset := by
  intro s hs hrst
  refine ⟨fun i hr hi => ?_, fun a c r1 hc h1 h2 => ?_⟩
  · have hxchg : ∃ c go, exec i s = .next (s.xchg c go) := by
      rcases hi with ⟨a, rfl⟩ | ⟨a, v, rfl, hn⟩ | ⟨k, rfl, hk⟩
      · exact ⟨_, _, rfl⟩
      · exact ⟨_, _, exec_wrreg_of_not_refused hs v hn⟩
      · obtain ⟨x, hx⟩ := hs.cell?_some hk
        exact ⟨_, _, exec_upd_of_cell? hx⟩
    obtain ⟨c, go, e⟩ := hxchg
    exact ⟨_, e, State.xchg_silence_stuck hs.1 hrst hr c go⟩
  · obtain rfl := eq_packFrame_read hc
    obtain ⟨hrab, hresults, hstuck⟩ := State.xchg_silence_stuck
      (s := s.exchange (packFrame 0#1 a 0#32)) hs.1 hrst h2 (packFrame 0#1 a 0#32)
      fun r2 u => u.respond { kind := .ok, data := frameData r2 }
    refine ⟨_, exec_rdreg_of_ok h1, hrab.trans ?_, hresults, hstuck⟩
    rw [State.exchange_rab, h1]
    rfl

/-! ## Who writes a cell (R15, R136) -/

/-- What an instruction run in s can make of a cell: nothing, or what `SETF`, a confirmed `UPD` or, under `update`, a confirmed `WRREG` of its register does. -/
inductive ShadowCell.Becomes (s : State) : Instr → ShadowCell → ShadowCell → Prop
  | kept (i : Instr) (c : ShadowCell) : Becomes s i c c
  | patched (m b : Word) (c : ShadowCell) : Becomes s (.setf (c.addr.setWidth 8) m b) c (c.patch m b)
  | committed (c : ShadowCell) {r : Frame} (hreply : s.env.reply = .ok r) :
      Becomes s (.upd (c.addr.setWidth 8)) c (c.commit c.merged)
  | overwritten (a : Byte) (v : Word) (c : ShadowCell) {r : Frame} (hreply : s.env.reply = .ok r)
      (haddr : maskAddr a = c.addr.setWidth 8) (hpolicy : s.cfg.rawWrite = .update) :
      Becomes s (.wrreg a v) c (c.overwrite v)

theorem ShadowCell.Becomes.addr_eq {s : State} {i : Instr} {c y : ShadowCell} (h : c.Becomes s i y) :
    y.addr = c.addr := by
  cases h <;> rfl

/-- `Xchg` leaves every cell, unless a response is followed by a change of one. -/
theorem State.mem_xchg_cells {s : State} {c : Frame} {go : Frame → State → State} {y : ShadowCell}
    (h : y ∈ (s.xchg c go).rab.cells) :
    y ∈ s.rab.cells ∨ ∃ r, s.env.reply = .ok r ∧ y ∈ (go r (s.exchange c)).rab.cells := by
  rcases State.xchg_cases c s go with ⟨r, hr, e⟩ | ⟨_, e⟩ | ⟨_, e⟩ <;> rw [e] at h
  · exact .inr ⟨r, hr, h⟩
  · exact .inl h
  · exact .inl h

/-- Instructions other than `SETF`, `UPD` and `WRREG` leave the shadow file. -/
theorem execOr_cells {i : Instr} (hsetf : ∀ k m b, i ≠ .setf k m b) (hupd : ∀ k, i ≠ .upd k)
    (hwrreg : ∀ a v, i ≠ .wrreg a v) (s : State) : (execOr i s).rab.cells = s.rab.cells := by
  have pin : ∀ on, (s.drivePin on).rab.cells = s.rab.cells := by
    intro on
    rcases State.drivePin_cases on s with ⟨_, _, e⟩ | ⟨_, _, e⟩ | ⟨_, e⟩ <;> rw [e] <;> rfl
  cases i
  case setf k m b => exact absurd rfl (hsetf k m b)
  case upd k => exact absurd rfl (hupd k)
  case wrreg a v => exact absurd rfl (hwrreg a v)
  case rdreg a =>
    rcases execOr_rdreg a s with ⟨_, _, ⟨_, _, e⟩ | ⟨_, e⟩ | ⟨_, e⟩⟩ | ⟨_, e⟩ | ⟨_, e⟩ <;> rw [e] <;> rfl
  case getsh k => rcases execOr_getsh k s with ⟨_, e⟩ | ⟨_, _, e⟩ <;> rw [e] <;> rfl
  case enable => exact pin true
  case disable => exact pin false
  -- the operations left return a result, or are the device's
  all_goals rfl

/-- Every cell after an instruction is what the instruction made of a cell before it. -/
theorem State.FileShape.cell_becomes {s : State} (hs : s.FileShape) {i : Instr} {y : ShadowCell}
    (hy : y ∈ (Machine.execOr i s).rab.cells) : ∃ c ∈ s.rab.cells, c.Becomes s i y := by
  have kept : y ∈ s.rab.cells → ∃ c ∈ s.rab.cells, c.Becomes s i y := fun hm => ⟨y, hm, .kept i y⟩
  cases i
  case setf k m b =>
    rw [execOr_setf_rab] at hy
    rcases Rab.mem_updateCell hy with ⟨c, hc, rfl, rfl⟩ | ⟨hm, _⟩
    · exact ⟨c, hc, .patched m b c⟩
    · exact kept hm
  case upd k =>
    rcases execOr_upd k s with ⟨_, e⟩ | ⟨x, hx, e⟩ <;> rw [e] at hy
    · exact kept hy
    · obtain ⟨hmem, hk⟩ := Rab.cell?_some hx
      rcases State.mem_xchg_cells hy with hm | ⟨r, hr, hy⟩
      · exact kept hm
      · rcases Rab.mem_updateCell hy with ⟨c, hc, ha, rfl⟩ | ⟨hm, _⟩
        · obtain rfl := hs.cell_eq hmem hc (setWidth_addr_injective (hk.trans ha.symm))
          exact ⟨x, hmem, hk ▸ .committed x hr⟩
        · exact kept hm
  case wrreg a v =>
    rcases execOr_wrreg a v s with ⟨_, _, _, e⟩ | ⟨_, e⟩ <;> rw [e] at hy
    · exact kept hy
    · rcases State.mem_xchg_cells hy with hm | ⟨r, hr, hy⟩
      · exact kept hm
      · split at hy
        · next hu =>
          rcases Rab.mem_updateCell hy with ⟨c, hc, ha, rfl⟩ | ⟨hm, _⟩
          · exact ⟨c, hc, .overwritten a v c hr ha.symm hu⟩
          · exact kept hm
        · exact kept hy
  all_goals
    rw [execOr_cells (by simp) (by simp) (by simp)] at hy
    exact kept hy

/-- Settles O34: the cell is the one of its address before, and the four things it can become say who wrote what. -/
theorem shadowWrittenOnlyByOwnOperations : Obligations.ShadowWrittenOnlyByOwnOperations := by
  intro i s t x y hs ht hx hy haddr
  obtain rfl := execOr_eq ht
  obtain ⟨c, hc, hbecomes⟩ := hs.cell_becomes hy
  obtain rfl : c = x := hs.cell_eq hc hx (hbecomes.addr_eq.symm.trans haddr)
  cases hbecomes with
  | kept => exact ⟨fun h => absurd rfl h, fun h => absurd rfl h⟩
  | patched m b => exact ⟨fun h => absurd rfl h, fun _ => .inl ⟨m, b, rfl⟩⟩
  | committed _ hr => exact ⟨fun _ => ⟨⟨_, hr⟩, .inl ⟨rfl, rfl⟩⟩, fun _ => .inr ⟨rfl, rfl, rfl⟩⟩
  | overwritten a v _ hr ha hp =>
    exact ⟨fun _ => ⟨⟨_, hr⟩, .inr ⟨a, rfl, ha, hp⟩⟩, fun h => absurd rfl h⟩

/-! ## Two runs side by side -/

/-- A relation of states that agree on all that an operation reads and that everything the meanings are made of keeps. -/
structure SameReads (R : State → State → Prop) : Prop where
  cfg : ∀ {s u}, R s u → u.cfg = s.cfg
  env : ∀ {s u}, R s u → u.env = s.env
  cells : ∀ {s u}, R s u → u.rab.cells = s.rab.cells
  st : ∀ {s u}, R s u → u.rab.st = s.rab.st
  respond : ∀ {s u} r, R s u → R (s.respond r) (u.respond r)
  hang : ∀ {s u}, R s u → R s.hang u.hang
  exchange : ∀ {s u} c, R s u → R (s.exchange c) (u.exchange c)
  updateCell : ∀ {s u} k f, R s u → R (s.updateCell k f) (u.updateCell k f)
  take : ∀ {s u} i f, R s u → R { s with env := s.env.take i f } { u with env := u.env.take i f }
  pinWrite : ∀ {s u}, R s u → R { s with env := s.env.pinWrite } { u with env := u.env.pinWrite }
  drive : ∀ {s u} l, R s u → R { s with rab := { s.rab with en := l }, env := s.env.pinWrite }
    { u with rab := { u.rab with en := l }, env := u.env.pinWrite }

section TwoRuns

variable {R : State → State → Prop} {s u : State}

theorem SameReads.cell? (hR : SameReads R) (h : R s u) (k : Byte) : u.rab.cell? k = s.rab.cell? k :=
  congrArg (List.find? _) (hR.cells h)

/-- `Xchg` makes the same exchange in both runs, so what follows decides. -/
theorem SameReads.xchg (hR : SameReads R) (h : R s u) (c : Frame) {go : Frame → State → State}
    (hgo : ∀ r {s' u'}, R s' u' → R (go r s') (go r u')) : R (s.xchg c go) (u.xchg c go) := by
  have henv := hR.env h
  rcases State.xchg_cases c s go with ⟨r, hr, e⟩ | ⟨hr, e⟩ | ⟨hr, e⟩ <;> rw [e]
  · rw [State.xchg_ok go (henv ▸ hr)]; exact hgo r (hR.exchange c h)
  · rw [State.xchg_fault go (henv ▸ hr)]; exact hR.respond _ (hR.exchange c h)
  · rw [State.xchg_silence go (henv ▸ hr)]; exact hR.hang (hR.exchange c h)

theorem SameReads.drivePin (hR : SameReads R) (h : R s u) (on : Bool) : R (s.drivePin on) (u.drivePin on) := by
  have hcfg := hR.cfg h
  have henv := hR.env h
  rcases State.drivePin_cases on s with ⟨hl, hp, e⟩ | ⟨hl, hp, e⟩ | ⟨hl, e⟩ <;> rw [e]
  · rw [State.drivePin_ok on (hcfg ▸ hl) (henv ▸ hp), congrArg (enableLevel · on) hcfg]
    exact hR.respond _ (hR.drive _ h)
  · rw [State.drivePin_fault on (hcfg ▸ hl) (henv ▸ hp)]; exact hR.respond _ (hR.pinWrite h)
  · rw [State.drivePin_refused on (hcfg ▸ hl)]; exact hR.respond _ h

theorem SameReads.wrreg (hR : SameReads R) (h : R s u) (a : Byte) (v : Word) :
    R (execOr (.wrreg a v) s) (execOr (.wrreg a v) u) := by
  simp only [execOr, exec, execWrreg, hR.cell? h, hR.cfg h]
  split
  · exact hR.respond _ h
  · exact hR.xchg h _ fun _ _ _ h1 => hR.respond _ (hR.updateCell _ _ h1)
  · exact hR.xchg h _ fun _ _ _ h1 => hR.respond _ h1
  · exact hR.xchg h _ fun _ _ _ h1 => hR.respond _ h1

/-- Every instruction keeps the relation: it does the same in both runs. -/
theorem SameReads.execOr (hR : SameReads R) (h : R s u) (i : Instr) : R (execOr i s) (execOr i u) := by
  cases i
  case rd a v => exact hR.take _ _ h
  case wr a v => exact hR.take _ _ h
  case rdreg a =>
    simp only [execOr_rdreg_eq]
    exact hR.xchg h _ fun _ _ _ h1 => hR.xchg h1 _ fun _ _ _ h2 => hR.respond _ h2
  case wrreg a v => exact hR.wrreg h a v
  case setf k m b =>
    simp only [Machine.execOr, exec, execSetf, hR.cell? h]
    split
    · exact hR.respond _ h
    · exact hR.respond _ (hR.updateCell _ _ h)
  case upd k =>
    simp only [Machine.execOr, exec, execUpd, hR.cell? h]
    split
    · exact hR.respond _ h
    · exact hR.xchg h _ fun _ _ _ h1 => hR.respond _ (hR.updateCell _ _ h1)
  case getsh k =>
    simp only [Machine.execOr, exec, execGetsh, hR.cell? h]
    split <;> exact hR.respond _ h
  case stdec sb =>
    simp only [Machine.execOr, exec, execStdec, hR.cfg h]
    exact hR.respond _ h
  case getst =>
    simp only [Machine.execOr, exec, execGetst, hR.cfg h, hR.st h]
    exact hR.respond _ h
  case enable => exact hR.drivePin h true
  case disable => exact hR.drivePin h false
  -- the operations left return a result that nothing of the state decides
  all_goals exact hR.respond _ h

end TwoRuns

/-! ## Past results are never read (R154) -/

/-- Two runs that returned the same new results on top of two histories, and are alike in everything else. -/
def State.SameButPast (past past' : List Result) (s u : State) : Prop :=
  ∃ new, s.results = new ++ past ∧ u = { s with results := new ++ past' }

theorem State.sameButPast_sameReads (past past' : List Result) : SameReads (State.SameButPast past past') where
  cfg := by rintro s u ⟨new, _, rfl⟩; rfl
  env := by rintro s u ⟨new, _, rfl⟩; rfl
  cells := by rintro s u ⟨new, _, rfl⟩; rfl
  st := by rintro s u ⟨new, _, rfl⟩; rfl
  respond := by rintro s u r ⟨new, hs, rfl⟩; exact ⟨r :: new, congrArg _ hs, rfl⟩
  hang := by rintro s u ⟨new, hs, rfl⟩; exact ⟨new, hs, rfl⟩
  exchange := by rintro s u c ⟨new, hs, rfl⟩; exact ⟨new, hs, rfl⟩
  updateCell := by rintro s u k f ⟨new, hs, rfl⟩; exact ⟨new, hs, rfl⟩
  take := by rintro s u i f ⟨new, hs, rfl⟩; exact ⟨new, hs, rfl⟩
  pinWrite := by rintro s u ⟨new, hs, rfl⟩; exact ⟨new, hs, rfl⟩
  drive := by rintro s u l ⟨new, hs, rfl⟩; exact ⟨new, hs, rfl⟩

/-- Settles O35: a run with another history is the same run. -/
theorem pastResultsNeverRead : Obligations.PastResultsNeverRead := by
  intro i s t rs ht
  obtain rfl := execOr_eq ht
  have hstart : s.SameButPast s.results rs { s with results := rs } := ⟨[], rfl, rfl⟩
  obtain ⟨new, hnew, hrun⟩ := (State.sameButPast_sameReads s.results rs).execOr hstart i
  exact ⟨new, hnew, by rw [exec_next, hrun]⟩

/-! ## The enable line is never read (R22) -/

/-- Two runs alike in everything but the line, which the second has at l, or as the first has it. -/
def State.SameButLine (l : EnableLevel) (s u : State) : Prop :=
  ∃ l', u = { s with rab := { s.rab with en := l' } } ∧ (l' = l ∨ l' = s.rab.en)

theorem State.sameButLine_sameReads (l : EnableLevel) : SameReads (State.SameButLine l) where
  cfg := by rintro s u ⟨l', rfl, _⟩; rfl
  env := by rintro s u ⟨l', rfl, _⟩; rfl
  cells := by rintro s u ⟨l', rfl, _⟩; rfl
  st := by rintro s u ⟨l', rfl, _⟩; rfl
  respond := by rintro s u r ⟨l', rfl, hl⟩; exact ⟨l', rfl, hl⟩
  hang := by rintro s u ⟨l', rfl, hl⟩; exact ⟨l', rfl, hl⟩
  exchange := by rintro s u c ⟨l', rfl, hl⟩; exact ⟨l', rfl, hl⟩
  updateCell := by rintro s u k f ⟨l', rfl, hl⟩; exact ⟨l', rfl, hl⟩
  take := by rintro s u i f ⟨l', rfl, hl⟩; exact ⟨l', rfl, hl⟩
  pinWrite := by rintro s u ⟨l', rfl, hl⟩; exact ⟨l', rfl, hl⟩
  drive := by rintro s u on ⟨l', rfl, _⟩; exact ⟨on, rfl, .inr rfl⟩

/-- `Xchg` leaves the line, if what follows a response does. -/
theorem State.xchg_en {s : State} (c : Frame) {go : Frame → State → State}
    (hgo : ∀ r s', (go r s').rab.en = s'.rab.en) : (s.xchg c go).rab.en = s.rab.en := by
  rcases State.xchg_cases c s go with ⟨r, _, e⟩ | ⟨_, e⟩ | ⟨_, e⟩ <;> rw [e]
  · exact hgo r _
  · rfl
  · rfl

/-- Only `ENABLE` and `DISABLE` change the line. -/
theorem execOr_en {i : Instr} (henable : i ≠ .enable) (hdisable : i ≠ .disable) (s : State) :
    (execOr i s).rab.en = s.rab.en := by
  cases i
  case enable => exact absurd rfl henable
  case disable => exact absurd rfl hdisable
  case rdreg a => exact State.xchg_en _ fun _ _ => State.xchg_en _ fun _ _ => rfl
  case wrreg a v =>
    rcases execOr_wrreg a v s with ⟨_, _, _, e⟩ | ⟨_, e⟩ <;> rw [e]
    · rfl
    · refine State.xchg_en _ fun r s' => ?_
      split <;> rfl
  case upd k =>
    rcases execOr_upd k s with ⟨_, e⟩ | ⟨_, _, e⟩ <;> rw [e]
    · rfl
    · exact State.xchg_en _ fun _ _ => rfl
  case setf k m b => rw [execOr_setf_rab, Rab.updateCell_en]
  case getsh k => rcases execOr_getsh k s with ⟨_, e⟩ | ⟨_, _, e⟩ <;> rw [e] <;> rfl
  -- the operations left return a result, or are the device's
  all_goals rfl

/-- Without an enable line neither operation changes it. -/
theorem State.drivePin_en_of_absent {s : State} (on : Bool) (hl : s.cfg.hasEnable = false) :
    (s.drivePin on).rab.en = s.rab.en := by
  rw [State.drivePin_refused on hl, State.raise_rab]

/-- Settles O42: an instruction that changes the line is one of the two that drive it, and another level changes nothing else. -/
theorem enableLineWrittenNeverRead : Obligations.EnableLineWrittenNeverRead := by
  intro i s t ht
  obtain rfl := execOr_eq ht
  refine ⟨fun hne => ?_, fun l => ?_⟩
  · have hi : i = .enable ∨ i = .disable := by
      by_contra hi
      obtain ⟨henable, hdisable⟩ := not_or.1 hi
      exact hne (execOr_en henable hdisable s)
    refine ⟨hi, Bool.of_not_eq_false fun hl => hne ?_⟩
    rcases hi with rfl | rfl
    · exact State.drivePin_en_of_absent true hl
    · exact State.drivePin_en_of_absent false hl
  · have hstart : s.SameButLine l { s with rab := { s.rab with en := l } } := ⟨l, rfl, .inl rfl⟩
    obtain ⟨l', hrun, hl⟩ := (State.sameButLine_sameReads l).execOr hstart i
    exact ⟨_, exec_next _ _, by rw [hrun], by rw [hrun]; exact hl⟩

end Sys2Proof.Machine
